-- ==== Sys2Proof/Word.lean ====
section
/-! DEFINITION. The word of CORE, a register index, and text.

A word is 32 bits, bit 31 the most significant (00_scope.md R6, R7). Every register, the PC, every memory slot and
every instruction is a word. A register field is 5 bits (30_encoding.md R51). -/

namespace Sys2Proof

/-- A 32-bit word (00_scope.md R3 `XLEN`, R6). -/
abbrev Word := BitVec 32

/-- A 5-bit register field with unsigned value i names register xi (10_state.md R10). -/
abbrev RegIdx := BitVec 5

/-- Text, character by character: a line of the program input (45_driver.md R136), a line of an output. -/
abbrev Text := List Char

end Sys2Proof
end

