-- ==== Sys2Proof/Syntax.lean ====
section
/-! DEFINITION. The instructions of CORE: one constructor for each row of spec/opcode_table.json, in the table's order
(00_scope.md R2, 30_encoding.md R61). -/

namespace Sys2Proof

/-- The five encoding formats (30_encoding.md R52). -/
inductive Format where
  | r | i | s | b | j
deriving DecidableEq, Repr

/-- A decoded instruction: the mnemonic and the fields its format has (10_state.md R21, 30_encoding.md R60).

Immediates are the raw fields of 30_encoding.md R56 to R59: 12 bits for I and S, 13 for B and 21 for J, the last two
with their trailing bit 0 in place. The bits a row does not examine (funct7 of slt, srl, or, and: R63) are no operand. -/
inductive Instr where
  | add (rd rs1 rs2 : RegIdx)
  | sub (rd rs1 rs2 : RegIdx)
  | slt (rd rs1 rs2 : RegIdx)
  | srl (rd rs1 rs2 : RegIdx)
  | or (rd rs1 rs2 : RegIdx)
  | and (rd rs1 rs2 : RegIdx)
  | addi (rd rs1 : RegIdx) (imm : BitVec 12)
  | lw (rd rs1 : RegIdx) (imm : BitVec 12)
  | jalr (rd rs1 : RegIdx) (imm : BitVec 12)
  | sw (rs1 rs2 : RegIdx) (imm : BitVec 12)
  | beq (rs1 rs2 : RegIdx) (off : BitVec 13)
  | bne (rs1 rs2 : RegIdx) (off : BitVec 13)
  | blt (rs1 rs2 : RegIdx) (off : BitVec 13)
  | jal (rd : RegIdx) (off : BitVec 21)
deriving DecidableEq, Repr

/-- The mnemonic, as the decode table spells it (30_encoding.md R61). -/
def Instr.mnemonic : Instr → String
  | .add _ _ _ => "add"
  | .sub _ _ _ => "sub"
  | .slt _ _ _ => "slt"
  | .srl _ _ _ => "srl"
  | .or _ _ _ => "or"
  | .and _ _ _ => "and"
  | .addi _ _ _ => "addi"
  | .lw _ _ _ => "lw"
  | .jalr _ _ _ => "jalr"
  | .sw _ _ _ => "sw"
  | .beq _ _ _ => "beq"
  | .bne _ _ _ => "bne"
  | .blt _ _ _ => "blt"
  | .jal _ _ => "jal"

/-- The type column of the decode table (30_encoding.md R61). -/
def Instr.format : Instr → Format
  | .add _ _ _ => .r
  | .sub _ _ _ => .r
  | .slt _ _ _ => .r
  | .srl _ _ _ => .r
  | .or _ _ _ => .r
  | .and _ _ _ => .r
  | .addi _ _ _ => .i
  | .lw _ _ _ => .i
  | .jalr _ _ _ => .i
  | .sw _ _ _ => .s
  | .beq _ _ _ => .b
  | .bne _ _ _ => .b
  | .blt _ _ _ => .b
  | .jal _ _ => .j

end Sys2Proof
end

