-- ==== Sys2Proof/WellFormed.lean ====
section
/-! DEFINITION. Which instructions have an encoding.

Every register index and every 12-bit immediate is legal (30_encoding.md R64). The only check is that bit 0 of a B-type
or J-type immediate, which is not stored in the word, is 0 (R52, R68 "i[0] must be 0"). -/

namespace Sys2Proof

/-- The check, for each constructor. -/
def Instr.wellFormed : Instr → Bool
  | .add _ _ _ => true
  | .sub _ _ _ => true
  | .slt _ _ _ => true
  | .srl _ _ _ => true
  | .or _ _ _ => true
  | .and _ _ _ => true
  | .addi _ _ _ => true
  | .lw _ _ _ => true
  | .jalr _ _ _ => true
  | .sw _ _ _ => true
  | .beq _ _ off => !off[0]
  | .bne _ _ off => !off[0]
  | .blt _ _ off => !off[0]
  | .jal _ off => !off[0]

/-- The instruction can be encoded: its unstored immediate bit is 0. -/
abbrev WellFormed (i : Instr) : Prop := i.wellFormed = true

end Sys2Proof
end

