-- ==== Sys2Proof/Decode.lean ====
section
/-! DEFINITION. The decoder and the encoder (30_encoding.md R50 to R68), the decode table of R61, and the halt pattern as a
property of the word (43_control_transfer.md R130). -/

namespace Sys2Proof

/-- The decoder's answer (30_encoding.md R60): an instruction, or the error variant. -/
inductive Decoded where
  | instr (i : Instr)
  | unknownInstruction
deriving DecidableEq, Repr

/-! ### Fields (30_encoding.md R51) -/

/-- `w[6:0]`. -/
def opcodeOf (w : Word) : BitVec 7 := w.extractLsb' 0 7
/-- `w[11:7]`. -/
def rdOf (w : Word) : RegIdx := w.extractLsb' 7 5
/-- `w[14:12]`. -/
def funct3Of (w : Word) : BitVec 3 := w.extractLsb' 12 3
/-- `w[19:15]`. -/
def rs1Of (w : Word) : RegIdx := w.extractLsb' 15 5
/-- `w[24:20]`. -/
def rs2Of (w : Word) : RegIdx := w.extractLsb' 20 5
/-- `w[31:25]`. -/
def funct7Of (w : Word) : BitVec 7 := w.extractLsb' 25 7

/-! ### Raw immediates (30_encoding.md R56 to R59) -/

/-- R56: `w[31:20]`. -/
def immIOf (w : Word) : BitVec 12 := w.extractLsb' 20 12
/-- R57: `w[31:25], w[11:7]`. -/
def immSOf (w : Word) : BitVec 12 := w.extractLsb' 25 7 ++ w.extractLsb' 7 5
/-- R58: `w[31], w[7], w[30:25], w[11:8], 0`. -/
def immBOf (w : Word) : BitVec 13 :=
  w.extractLsb' 31 1 ++ w.extractLsb' 7 1 ++ w.extractLsb' 25 6 ++ w.extractLsb' 8 4 ++ 0#1
/-- R59: `w[31], w[19:12], w[20], w[30:21], 0`. -/
def immJOf (w : Word) : BitVec 21 :=
  w.extractLsb' 31 1 ++ w.extractLsb' 12 8 ++ w.extractLsb' 20 1 ++ w.extractLsb' 21 10 ++ 0#1

/-! ### Decoder -/

/-- The R-type column of R65. -/
def decodeR (w : Word) : Decoded :=
  let rd := rdOf w
  let rs1 := rs1Of w
  let rs2 := rs2Of w
  if funct3Of w = 0b000#3 then
    if funct7Of w = 0b0000000#7 then .instr (.add rd rs1 rs2)
    else if funct7Of w = 0b0100000#7 then .instr (.sub rd rs1 rs2)
    else .unknownInstruction
  else if funct3Of w = 0b010#3 then .instr (.slt rd rs1 rs2)
  else if funct3Of w = 0b101#3 then .instr (.srl rd rs1 rs2)
  else if funct3Of w = 0b110#3 then .instr (.or rd rs1 rs2)
  else if funct3Of w = 0b111#3 then .instr (.and rd rs1 rs2)
  else .unknownInstruction

/-- The B-type column of R65. -/
def decodeB (w : Word) : Decoded :=
  let rs1 := rs1Of w
  let rs2 := rs2Of w
  let off := immBOf w
  if funct3Of w = 0b000#3 then .instr (.beq rs1 rs2 off)
  else if funct3Of w = 0b001#3 then .instr (.bne rs1 rs2 off)
  else if funct3Of w = 0b100#3 then .instr (.blt rs1 rs2 off)
  else .unknownInstruction

/-- `Decode(w)` (30_encoding.md R65), total on all words. -/
def decode (w : Word) : Decoded :=
  if opcodeOf w = 0b0110011#7 then decodeR w
  else if opcodeOf w = 0b0010011#7 then
    if funct3Of w = 0b000#3 then .instr (.addi (rdOf w) (rs1Of w) (immIOf w)) else .unknownInstruction
  else if opcodeOf w = 0b0000011#7 then
    if funct3Of w = 0b010#3 then .instr (.lw (rdOf w) (rs1Of w) (immIOf w)) else .unknownInstruction
  else if opcodeOf w = 0b1100111#7 then
    if funct3Of w = 0b000#3 then .instr (.jalr (rdOf w) (rs1Of w) (immIOf w)) else .unknownInstruction
  else if opcodeOf w = 0b0100011#7 then
    if funct3Of w = 0b010#3 then .instr (.sw (rs1Of w) (rs2Of w) (immSOf w)) else .unknownInstruction
  else if opcodeOf w = 0b1100011#7 then decodeB w
  else if opcodeOf w = 0b1101111#7 then .instr (.jal (rdOf w) (immJOf w))
  else .unknownInstruction

/-- `IsHalt(w)` (43_control_transfer.md R130, first form): a `beq` whose register fields are equal and whose offset is 0.
Which words these are is decision D3. -/
def isHalt (w : Word) : Bool :=
  match decode w with
  | .instr (.beq rs1 rs2 off) => rs1 = rs2 && off = 0#13
  | _ => false

/-! ### The decode table as match and mask (30_encoding.md R61) -/

/-- A row of the decode table. A word selects it when its masked bits are the row's pattern. -/
structure Row where
  mnemonic : String
  format : Format
  pattern : Word
  mask : Word
deriving DecidableEq, Repr

/-- The word selects the row: `w & mask = match` (30_encoding.md R61). -/
def Row.selects (r : Row) (w : Word) : Bool := w &&& r.mask = r.pattern

/-- The fourteen rows, in the table's order. -/
def decodeTable : List Row :=
  [ ⟨"add", .r, 0x00000033#32, 0xFE00707F#32⟩,
    ⟨"sub", .r, 0x40000033#32, 0xFE00707F#32⟩,
    ⟨"slt", .r, 0x00002033#32, 0x0000707F#32⟩,
    ⟨"srl", .r, 0x00005033#32, 0x0000707F#32⟩,
    ⟨"or", .r, 0x00006033#32, 0x0000707F#32⟩,
    ⟨"and", .r, 0x00007033#32, 0x0000707F#32⟩,
    ⟨"addi", .i, 0x00000013#32, 0x0000707F#32⟩,
    ⟨"lw", .i, 0x00002003#32, 0x0000707F#32⟩,
    ⟨"jalr", .i, 0x00000067#32, 0x0000707F#32⟩,
    ⟨"sw", .s, 0x00002023#32, 0x0000707F#32⟩,
    ⟨"beq", .b, 0x00000063#32, 0x0000707F#32⟩,
    ⟨"bne", .b, 0x00001063#32, 0x0000707F#32⟩,
    ⟨"blt", .b, 0x00004063#32, 0x0000707F#32⟩,
    ⟨"jal", .j, 0x0000006F#32, 0x0000007F#32⟩ ]

/-! ### Encoder (30_encoding.md R52, R68) -/

/-- R format. -/
def encodeR (funct7 : BitVec 7) (rs2 rs1 : RegIdx) (funct3 : BitVec 3) (rd : RegIdx) (opcode : BitVec 7) : Word :=
  funct7 ++ rs2 ++ rs1 ++ funct3 ++ rd ++ opcode

/-- I format. -/
def encodeI (imm : BitVec 12) (rs1 : RegIdx) (funct3 : BitVec 3) (rd : RegIdx) (opcode : BitVec 7) : Word :=
  imm ++ rs1 ++ funct3 ++ rd ++ opcode

/-- S format: `i[11:5]` above rs2, `i[4:0]` in the place of rd. -/
def encodeS (imm : BitVec 12) (rs2 rs1 : RegIdx) (funct3 : BitVec 3) (opcode : BitVec 7) : Word :=
  imm.extractLsb' 5 7 ++ rs2 ++ rs1 ++ funct3 ++ imm.extractLsb' 0 5 ++ opcode

/-- B format: `i[12], i[10:5]` above rs2, `i[4:1], i[11]` in the place of rd; `i[0]` is not stored. -/
def encodeB (off : BitVec 13) (rs2 rs1 : RegIdx) (funct3 : BitVec 3) (opcode : BitVec 7) : Word :=
  off.extractLsb' 12 1 ++ off.extractLsb' 5 6 ++ rs2 ++ rs1 ++ funct3 ++ off.extractLsb' 1 4 ++ off.extractLsb' 11 1 ++ opcode

/-- J format: `i[20], i[10:1], i[11], i[19:12]`; `i[0]` is not stored. -/
def encodeJ (off : BitVec 21) (rd : RegIdx) (opcode : BitVec 7) : Word :=
  off.extractLsb' 20 1 ++ off.extractLsb' 1 10 ++ off.extractLsb' 11 1 ++ off.extractLsb' 12 8 ++ rd ++ opcode

/-- The word of an instruction (30_encoding.md R68). The funct7 bits that slt, srl, or, and do not examine are 0 (R63). -/
def encode : Instr → Word
  | .add rd rs1 rs2 => encodeR 0b0000000#7 rs2 rs1 0b000#3 rd 0b0110011#7
  | .sub rd rs1 rs2 => encodeR 0b0100000#7 rs2 rs1 0b000#3 rd 0b0110011#7
  | .slt rd rs1 rs2 => encodeR 0b0000000#7 rs2 rs1 0b010#3 rd 0b0110011#7
  | .srl rd rs1 rs2 => encodeR 0b0000000#7 rs2 rs1 0b101#3 rd 0b0110011#7
  | .or rd rs1 rs2 => encodeR 0b0000000#7 rs2 rs1 0b110#3 rd 0b0110011#7
  | .and rd rs1 rs2 => encodeR 0b0000000#7 rs2 rs1 0b111#3 rd 0b0110011#7
  | .addi rd rs1 imm => encodeI imm rs1 0b000#3 rd 0b0010011#7
  | .lw rd rs1 imm => encodeI imm rs1 0b010#3 rd 0b0000011#7
  | .jalr rd rs1 imm => encodeI imm rs1 0b000#3 rd 0b1100111#7
  | .sw rs1 rs2 imm => encodeS imm rs2 rs1 0b010#3 0b0100011#7
  | .beq rs1 rs2 off => encodeB off rs2 rs1 0b000#3 0b1100011#7
  | .bne rs1 rs2 off => encodeB off rs2 rs1 0b001#3 0b1100011#7
  | .blt rs1 rs2 off => encodeB off rs2 rs1 0b100#3 0b1100011#7
  | .jal rd off => encodeJ off rd 0b1101111#7

/-! ### The host's question about a row of the opcode table -/

/-- The instruction the decoder reads from the `nbits` low bits of `w`, all higher bits 0. Every row of the table has 32
bits and the instruction space holds whole words (20_memory.md R38), so the word is given to the decoder as it is. -/
def decodeTableWord (nbits w : Nat) : Option Instr :=
  match decode (BitVec.ofNat 32 (w % 2 ^ nbits)) with
  | .instr i => some i
  | .unknownInstruction => none

end Sys2Proof
end

