-- ==== Sys2Proof/Machine/Codec.lean ====
section
/-! DEFINITION. The two's-complement codec (30_encoding.md R53 to R55, 00_scope.md R6): the two readings of a word, and the
narrowing of an exact integer to a word. -/

namespace Sys2Proof.Machine

/-- `decodeTwosComplement_N` (30_encoding.md R53): bit N − 1 set means the value less 2^N. -/
def decodeTwosComplement {n : Nat} (v : BitVec n) : Int :=
  if v.msb then (v.toNat : Int) - 2 ^ n else (v.toNat : Int)

/-- `signed(w)` (00_scope.md R6): the same reading at N = 32. -/
def signed (w : Word) : Int := decodeTwosComplement w

/-- `unsigned(w)` (00_scope.md R6). -/
def unsigned (w : Word) : Nat := w.toNat

/-- `u32(z)` (00_scope.md R6): the word whose unsigned reading is the non-negative remainder `z mod 2^32`. -/
def u32 (z : Int) : Word := BitVec.ofNat 32 (z % 2 ^ 32).toNat

/-- `encodeSigned32` (30_encoding.md R54), for −2^31 ≤ z < 2^31. -/
def encodeSigned32 (z : Int) : Word :=
  if 0 ≤ z then BitVec.ofNat 32 z.toNat else BitVec.ofNat 32 (2 ^ 32 + z).toNat

/-- `sext_N(v)` (30_encoding.md R55), used for N = 12, 13 and 21: bit N − 1 is copied into bits 31 … N.

DESIGN CHOICE (log entry 16): the spec wants `sext_N` defined for 1 ≤ N ≤ 32 only and never asks what a wider field keeps
(93_implementation_defined.md U6); this function has a value at every width, the low 32 bits of the field for N > 32 and 0
for N = 0. No instruction has a field of such a width. -/
def sext {n : Nat} (v : BitVec n) : Word := v.signExtend 32

end Sys2Proof.Machine
end

