-- ==== Sys2Proof/Machine/Flags.lean ====
section
/-! DEFINITION. The arithmetic unit (40_alu_register.md R81 to R90).

CORE has no flag and no condition code (10_state.md R25): a comparison is made inside the instruction that uses it. The
adder forms every sum and difference exactly and narrows it with `u32` (R81, R90); the comparator serves slt and blt
(signed) and beq and bne (equality of patterns). -/

namespace Sys2Proof.Machine

/-- The adder: exact sum of the signed readings, then `u32` (R81). -/
def addWords (a b : Word) : Word := u32 (signed a + signed b)

/-- The exact difference of the signed readings, then `u32` (R81). -/
def subWords (a b : Word) : Word := u32 (signed a - signed b)

/-- The signed comparison of slt and blt, on the exact values (R82, R85). -/
def lessSigned (a b : Word) : Bool := signed a < signed b

/-- The comparison of beq and bne: equality of the two patterns (R82). -/
def samePattern (a b : Word) : Bool := a = b

/-- The result of slt: the word 1 or 0 (R85). -/
def sltWord (a b : Word) : Word := if lessSigned a b then 1#32 else 0#32

/-- The result of srl: a logical shift by the low 5 bits of `b` (R86). -/
def srlWord (a b : Word) : Word := a >>> (unsigned b % 32)

end Sys2Proof.Machine
end

