-- ==== Sys2Proof/Config.lean ====
section
/-! DEFINITION. What is fixed for the machine: the parameters of 00_scope.md R3, the kinds of event of
60_exceptions.md R165, and the two parameters the spec leaves open (DIAG_TEXT and HEX_STYLE), as constants with no body. -/

namespace Sys2Proof

/-- The event kinds (60_exceptions.md R165). -/
inductive FaultKind where
  | malformedInput
  | unknownInstruction
  | outOfRangeAccess
  | safetyCeilingExceeded
  | fetchOutOfRange
deriving DecidableEq, Repr

/-- The numeric code of a kind (60_exceptions.md R174, decision D15); 0 is reserved for "no fault". -/
def FaultKind.code : FaultKind → Nat
  | .malformedInput => 1
  | .unknownInstruction => 2
  | .outOfRangeAccess => 3
  | .safetyCeilingExceeded => 4
  | .fetchOutOfRange => 5

/-- The style of `<address-hex>` in a dump line: the characters before the digits and the case of the letters
(45_driver.md R152, the open parameter HEX_STYLE of decision D14). -/
structure HexStyle where
  before : Text
  upperCase : Bool
deriving DecidableEq, Repr, Inhabited

namespace Config

/-- `STACK_BASE` (00_scope.md R3). -/
def stackBase : Nat := 0x100
/-- `STACK_TOP`, inclusive (00_scope.md R3). -/
def stackTop : Nat := 0x17C
/-- `DATA_BASE` (00_scope.md R3). -/
def dataBase : Nat := 0x10000
/-- `DATA_TOP`, inclusive (00_scope.md R3). -/
def dataTop : Nat := 0x1007C
/-- `DATA_SLOTS` (00_scope.md R3). -/
def dataSlots : Nat := 32
/-- `SP_RESET` (00_scope.md R3). -/
def spReset : Word := 0x17C#32
/-- `PC_RESET` (00_scope.md R3). -/
def pcReset : Word := 0#32
/-- `STEP_CEILING` (00_scope.md R3). -/
def stepCeiling : Nat := 10000

/-- `DIAG_TEXT` (45_driver.md R154): the wording of the diagnostic line of a fault, by kind and position. OPEN in the
spec (decision D13), so it has no body. -/
opaque diagText : FaultKind → Nat → Text

/-- `HEX_STYLE` (45_driver.md R152): OPEN in the spec (decision D14), so it has no body. -/
opaque hexStyle : HexStyle

end Config

end Sys2Proof
end

