-- ==== Sys2Proof/Machine/State.lean ====
section
/-! DEFINITION. The whole state of CORE (10_state.md R10 to R28) as plain data, its reset (R26), and why a step has none.

The state is: 31 general registers (x0 has no cell), the PC, the data space (stack and data slots), program memory, the
phase, the step counter, the trace and the fault record. There is nothing else (R25). -/

namespace Sys2Proof.Machine

/-- The cells of x1 … x31, in order. There is no cell for x0 (10_state.md R11, R12). -/
abbrev RegFile := Vector Word 31

/-- The data space: the slots that hold a word other than 0, as (address, word) pairs with strictly rising addresses.
An unlisted slot holds 0 (10_state.md R26). Slots are word-valued and no byte cell exists (20_memory.md R38). -/
abbrev Memory := List (Nat × Word)

/-- One trace line: the PC and the registers after a step (45_driver.md R145, R150). -/
structure Snapshot where
  pc : Word
  regs : RegFile
deriving DecidableEq, Repr

/-- The driver's phase (10_state.md R22, 45_driver.md R139). `decoding` carries the fetched word (R142) and `executing`
the decoded instruction (R143), the ephemeral value of R21; the last three phases are terminal. -/
inductive Phase where
  | fetching
  | decoding (w : Word)
  | executing (i : Instr)
  | halted
  | ceilingHalted
  | faulted
deriving DecidableEq, Repr

/-- What entering `Faulted` records: the kind, the 1-based position, and the auxiliary word the spec lets the record
carry (10_state.md R28, 60_exceptions.md R170). -/
structure FaultRecord where
  kind : FaultKind
  position : Nat
  aux : Option Word
deriving DecidableEq, Repr

/-- The state of CORE. -/
structure State where
  /-- x1 … x31 (R10); x0 is hardwired (R11) -/
  regs : RegFile
  /-- the program counter (R15) -/
  pc : Word
  /-- the stack and data slots (R18, R19) -/
  mem : Memory
  /-- program memory: word i lives at instruction-space byte address 4·i (R20) -/
  prog : List Word
  /-- the driver's phase (R22) -/
  phase : Phase
  /-- the number of executed steps (R23) -/
  steps : Nat
  /-- the trace, oldest snapshot first (R24) -/
  trace : List Snapshot
  /-- the fault record (R28) -/
  faultRecord : Option FaultRecord
deriving DecidableEq, Repr

/-- Why a step gives no next state. An event of 60_exceptions.md R165 is NOT one of these: its entry is a next state, in
phase `faulted` or `ceilingHalted`. These say only that no step exists from a terminal phase (R175, 93 U11 `stuck`). -/
inductive Fault where
  /-- Raised by `step` in phase `halted`: the run has ended cleanly and no transition exists. Safe. -/
  | haltedHasNoStep
  /-- Raised by `step` in phase `ceilingHalted`: the run has been cut and no transition exists. Safe. -/
  | ceilingHaltedHasNoStep
  /-- Raised by `step` in phase `faulted`: the run has failed and no transition exists. Safe. -/
  | faultedHasNoStep
deriving DecidableEq, Repr

/-- Why an instruction is refused. -/
inductive Refusal where
  /-- Raised only by an arm of `exec` whose instruction has no meaning yet; no arm does. Safe. -/
  | notModelled (mnemonic : String)
deriving DecidableEq, Repr

/-- Reset (10_state.md R26): every register 0 but x2 = 0x17C, pc 0, every slot 0, phase `Fetching`, no step, an empty
trace, no record. Program memory is an input of the run; with no input it holds no word (N = 0, decision D16), and
`load` fills it (45_driver.md R138). -/
def State.reset : State where
  regs := (Vector.replicate 31 0#32).set 1 Config.spReset
  pc := Config.pcReset
  mem := []
  prog := []
  phase := .fetching
  steps := 0
  trace := []
  faultRecord := none

end Sys2Proof.Machine
end

