-- ==== Sys2Proof/Machine/Ops.lean ====
section
/-! DEFINITION. The named operations over registers, memory and program memory, the step results of the execution engine,
the commit of a step, and the entry into `Faulted`. -/

namespace Sys2Proof.Machine

/-! ### Registers (10_state.md R11, R12) -/

/-- The word a register file shows at an index: x0 reads as 0 always (R11). -/
def regGet (f : RegFile) (i : RegIdx) : Word :=
  if i = 0#5 then 0#32 else f[i.toNat - 1]'(by have := i.isLt; omega)

/-- The register write port (R12): a write to x0 is discarded, not stored. -/
def regSet (f : RegFile) (i : RegIdx) (v : Word) : RegFile :=
  if i = 0#5 then f else f.set (i.toNat - 1) v (by have := i.isLt; omega)

/-- `x[i]` in a state (00_scope.md R8). -/
def readReg (s : State) (i : RegIdx) : Word := regGet s.regs i

/-- `x[i] <- v` in a state (00_scope.md R8). -/
def writeReg (s : State) (i : RegIdx) (v : Word) : State := { s with regs := regSet s.regs i v }

/-! ### The data space (20_memory.md R31, R33, R36, R37) -/

/-- A slot of the data space, by region and address (R33). -/
inductive Slot where
  | stack (a : Word)
  | data (a : Word)
deriving DecidableEq, Repr

/-- The address of a slot, the key of its word in memory. -/
def slotKey : Slot → Nat
  | .stack a => a.toNat
  | .data a => a.toNat

/-- Address `a` is one of the 32 stack slots (10_state.md R18). -/
def isStackSlot (a : Nat) : Bool := a % 4 = 0 && Config.stackBase ≤ a && a ≤ Config.stackTop

/-- Address `a` is one of the 32 data slots (10_state.md R19). -/
def isDataSlot (a : Nat) : Bool := a % 4 = 0 && Config.dataBase ≤ a && a ≤ Config.dataTop

/-- `Resolve(a)` (R33), on the unsigned reading of `a`; `none` where there is nothing. -/
def resolve (a : Word) : Option Slot :=
  if isStackSlot a.toNat then some (.stack a)
  else if isDataSlot a.toNat then some (.data a)
  else none

/-- What an unlisted slot holds: its reset value (10_state.md R26). -/
def unlistedWord : Word := 0#32

/-- The word at a key of a memory in canonical form. -/
def cellGet : Memory → Nat → Word
  | [], _ => unlistedWord
  | (b, v) :: m, a => if a < b then unlistedWord else if a = b then v else cellGet m a

/-- Puts a word at a key and keeps the canonical form: the value an unlisted slot holds removes the entry. -/
def cellSet : Memory → Nat → Word → Memory
  | [], a, v => if v = unlistedWord then [] else [(a, v)]
  | (b, w) :: m, a, v =>
    if a < b then (if v = unlistedWord then (b, w) :: m else (a, v) :: (b, w) :: m)
    else if a = b then (if v = unlistedWord then m else (a, v) :: m)
    else (b, w) :: cellSet m a v

/-- The canonical form: addresses strictly rising, each the address of a slot, no entry equal to what an unlisted slot
holds. -/
abbrev Memory.wf (m : Memory) : Prop :=
  m.Pairwise (fun c d => c.1 < d.1) ∧ ∀ c ∈ m, (isStackSlot c.1 || isDataSlot c.1) = true ∧ c.2 ≠ unlistedWord

/-- `MemRead(a, 4)` (R36): the word held by the slot at `a`, or `none` where the spec raises `OutOfRangeAccess(a)`. -/
def memRead (m : Memory) (a : Word) : Option Word := (resolve a).map fun sl => cellGet m (slotKey sl)

/-- `MemWrite(a, 4, v)` (R37): the memory in which the slot at `a` holds `v`, or `none` where the spec raises
`OutOfRangeAccess(a)`. -/
def memWrite (m : Memory) (a v : Word) : Option Memory := (resolve a).map fun sl => cellSet m (slotKey sl) v

/-! ### The instruction space (20_memory.md R30, 45_driver.md R141, R142) -/

/-- The fetch unit: the program word at byte address `pc`, or `none` where none lives there, that is where `pc mod 4` is
not 0 or `pc / 4 ≥ N` (45_driver.md R141). -/
def fetchWord (s : State) : Option Word :=
  if s.pc.toNat % 4 = 0 then s.prog[s.pc.toNat / 4]? else none

/-- The 1-based position of byte address `pc` in the program input: floor(pc / 4) + 1 (60_exceptions.md R167, R176). -/
def position (pc : Word) : Nat := pc.toNat / 4 + 1

/-! ### Entering `Faulted` (60_exceptions.md R170 to R172) -/

/-- The phase becomes `Faulted`, the record is written and the trace is discarded (R171); no register, slot, PC or step
count changes (R172, decision D12). There is no handler and no return (R175). -/
def enterFaulted (s : State) (kind : FaultKind) (pos : Nat) (aux : Option Word) : State :=
  { s with phase := .faulted, faultRecord := some ⟨kind, pos, aux⟩, trace := [] }

/-! ### Step results and commit (00_scope.md R9, 45_driver.md R144 to R147) -/

/-- The writes of one instruction: at most one register (10_state.md R14) and the memory after its store, if it stores. -/
structure Writes where
  reg : Option (RegIdx × Word)
  mem : Option Memory
deriving DecidableEq, Repr

/-- The result of executing one instruction (00_scope.md R9): `Next(writes, t)`, `Halt`, or `Fault(OutOfRangeAccess, a)`,
the only fault the engine can return (45_driver.md R144). -/
inductive StepResult where
  | next (w : Writes) (t : Word)
  | halt
  | outOfRange (a : Word)
deriving DecidableEq, Repr

/-- The snapshot of a state (45_driver.md R150). -/
def snapshot (s : State) : Snapshot := ⟨s.pc, s.regs⟩

/-- Counts the step and appends its snapshot (45_driver.md R145, R146). -/
def countStep (s : State) : State := { s with steps := s.steps + 1, trace := s.trace ++ [snapshot s] }

/-- Applies an instruction's writes, the register through the write port. -/
def applyWrites (s : State) (w : Writes) : State :=
  let s1 := match w.reg with
    | some (i, v) => writeReg s i v
    | none => s
  match w.mem with
  | some m => { s1 with mem := m }
  | none => s1

/-- The driver's commit of a step result: R145 for `Next`, R146 for `Halt` (decision D6), R147 for a fault. -/
def commit (s : State) : StepResult → State
  | .next w t => countStep { applyWrites s w with pc := t, phase := .fetching }
  | .halt => countStep { s with phase := .halted }
  | .outOfRange a => enterFaulted s .outOfRangeAccess (position s.pc) (some a)

/-- Every instruction gives a next state: its committed result. -/
def finish (s : State) (r : StepResult) : Host.Outcome State Fault Refusal := .next (commit s r)

end Sys2Proof.Machine
end

