-- ==== Sys2Proof/Machine/Operands.lean ====
section
/-! DEFINITION. Every operand form: the next sequential PC and link value, the effective address, the branch and jump
targets (10_state.md R16, 20_memory.md R32, 43_control_transfer.md R115 to R119), and the step results that one register
write, one load or one store give. Every source is read from the state before the step (70_reset_and_hazards.md R195). -/

namespace Sys2Proof.Machine

/-- `u32(pc + 4)`: the next sequential PC (R16) and the link value of jal and jalr (R116). -/
def nextPc (s : State) : Word := u32 (unsigned s.pc + 4)

/-- `EA(rs1, imm12)` (20_memory.md R32, 42_load_store.md R105): base register plus sign-extended displacement. -/
def effectiveAddress (s : State) (rs1 : RegIdx) (imm : BitVec 12) : Word := addWords (readReg s rs1) (sext imm)

/-- A PC-relative target: the executing instruction's own address plus the signed offset (43_control_transfer.md R115). -/
def relativeTarget {n : Nat} (s : State) (off : BitVec n) : Word := u32 (unsigned s.pc + signed (sext off))

/-- The target of jalr: the sum with bit 0 cleared (43_control_transfer.md R117). -/
def jalrTarget (s : State) (rs1 : RegIdx) (imm : BitVec 12) : Word :=
  addWords (readReg s rs1) (sext imm) &&& 0xFFFFFFFE#32

/-- Write `v` to `x[rd]` and continue at `t`. -/
def writeRegResult (rd : RegIdx) (v t : Word) : StepResult := .next ⟨some (rd, v), none⟩ t

/-- Change nothing but the PC. -/
def jumpResult (t : Word) : StepResult := .next ⟨none, none⟩ t

/-- The result of a conditional branch (43_control_transfer.md R119). -/
def branchResult (s : State) (taken : Bool) (off : BitVec 13) : StepResult :=
  jumpResult (if taken then relativeTarget s off else nextPc s)

/-- The result of a load (42_load_store.md R106): the range check comes before and regardless of the register write. -/
def loadResult (s : State) (rd : RegIdx) (a : Word) : StepResult :=
  match memRead s.mem a with
  | some v => writeRegResult rd v (nextPc s)
  | none => .outOfRange a

/-- The result of a store (42_load_store.md R107). -/
def storeResult (s : State) (a v : Word) : StepResult :=
  match memWrite s.mem a v with
  | some m => .next ⟨none, some m⟩ (nextPc s)
  | none => .outOfRange a

end Sys2Proof.Machine
end

