-- ==== Sys2Proof/Machine/Alu.lean ====
section
/-! DEFINITION. The ALU instructions: add, sub, slt, srl, or, and (40_alu_register.md) and addi (41_alu_immediate.md).
Each writes one register and goes on at pc + 4; none raises an exception (R80, R100). -/

namespace Sys2Proof.Machine

/-- `add` (40_alu_register.md R83). -/
def execAdd (rd rs1 rs2 : RegIdx) (s : State) : Host.Outcome State Fault Refusal :=
  finish s (writeRegResult rd (addWords (readReg s rs1) (readReg s rs2)) (nextPc s))

/-- `sub` (40_alu_register.md R84). -/
def execSub (rd rs1 rs2 : RegIdx) (s : State) : Host.Outcome State Fault Refusal :=
  finish s (writeRegResult rd (subWords (readReg s rs1) (readReg s rs2)) (nextPc s))

/-- `slt` (40_alu_register.md R85). -/
def execSlt (rd rs1 rs2 : RegIdx) (s : State) : Host.Outcome State Fault Refusal :=
  finish s (writeRegResult rd (sltWord (readReg s rs1) (readReg s rs2)) (nextPc s))

/-- `srl` (40_alu_register.md R86). -/
def execSrl (rd rs1 rs2 : RegIdx) (s : State) : Host.Outcome State Fault Refusal :=
  finish s (writeRegResult rd (srlWord (readReg s rs1) (readReg s rs2)) (nextPc s))

/-- `or` (40_alu_register.md R87). -/
def execOr (rd rs1 rs2 : RegIdx) (s : State) : Host.Outcome State Fault Refusal :=
  finish s (writeRegResult rd (readReg s rs1 ||| readReg s rs2) (nextPc s))

/-- `and` (40_alu_register.md R88). -/
def execAnd (rd rs1 rs2 : RegIdx) (s : State) : Host.Outcome State Fault Refusal :=
  finish s (writeRegResult rd (readReg s rs1 &&& readReg s rs2) (nextPc s))

/-- `addi` (41_alu_immediate.md R100): the immediate is sign-extended, never zero-extended. -/
def execAddi (rd rs1 : RegIdx) (imm : BitVec 12) (s : State) : Host.Outcome State Fault Refusal :=
  finish s (writeRegResult rd (addWords (readReg s rs1) (sext imm)) (nextPc s))

end Sys2Proof.Machine
end

