-- ==== Sys2Proof/Machine/Control.lean ====
section
/-! DEFINITION. The control transfers jalr, beq, bne, blt, jal and the halt pattern (43_control_transfer.md). No target is
checked here: a target no program word answers faults at the next fetch (R123). -/

namespace Sys2Proof.Machine

/-- `jalr` (43_control_transfer.md R117): `x[rs1]` is read before the link is written (decision D11). -/
def execJalr (rd rs1 : RegIdx) (imm : BitVec 12) (s : State) : Host.Outcome State Fault Refusal :=
  finish s (writeRegResult rd (nextPc s) (jalrTarget s rs1 imm))

/-- `beq` (43_control_transfer.md R120): equal register fields with offset 0 are the halt pattern (R130, decision D3),
whatever the registers hold. -/
def execBeq (rs1 rs2 : RegIdx) (off : BitVec 13) (s : State) : Host.Outcome State Fault Refusal :=
  finish s (if rs1 = rs2 ∧ off = 0#13 then .halt
            else branchResult s (samePattern (readReg s rs1) (readReg s rs2)) off)

/-- `bne` (43_control_transfer.md R121). -/
def execBne (rs1 rs2 : RegIdx) (off : BitVec 13) (s : State) : Host.Outcome State Fault Refusal :=
  finish s (branchResult s (!samePattern (readReg s rs1) (readReg s rs2)) off)

/-- `blt` (43_control_transfer.md R122). -/
def execBlt (rs1 rs2 : RegIdx) (off : BitVec 13) (s : State) : Host.Outcome State Fault Refusal :=
  finish s (branchResult s (lessSigned (readReg s rs1) (readReg s rs2)) off)

/-- `jal` (43_control_transfer.md R118). -/
def execJal (rd : RegIdx) (off : BitVec 21) (s : State) : Host.Outcome State Fault Refusal :=
  finish s (writeRegResult rd (nextPc s) (relativeTarget s off))

end Sys2Proof.Machine
end

