-- ==== Sys2Proof/Machine/LoadStore.lean ====
section
/-! DEFINITION. The load and the store of a whole word: lw and sw (42_load_store.md). An address that names no slot takes
the machine into `Faulted(OutOfRangeAccess)` with nothing of the instruction applied (45_driver.md R147). -/

namespace Sys2Proof.Machine

/-- `lw` (42_load_store.md R106): the address is formed from the old `x[rs1]`. -/
def execLw (rd rs1 : RegIdx) (imm : BitVec 12) (s : State) : Host.Outcome State Fault Refusal :=
  finish s (loadResult s rd (effectiveAddress s rs1 imm))

/-- `sw` (42_load_store.md R107): all 32 bits of `x[rs2]` are stored. -/
def execSw (rs1 rs2 : RegIdx) (imm : BitVec 12) (s : State) : Host.Outcome State Fault Refusal :=
  finish s (storeResult s (effectiveAddress s rs1 imm) (readReg s rs2))

end Sys2Proof.Machine
end

