-- ==== Sys2Proof/Machine/Driver.lean ====
section
/-! DEFINITION. The simulation driver's state machine (45_driver.md R135, R139 to R149): one row of the transition table at
a time, and the atomic step made of them. -/

namespace Sys2Proof.Machine

/-- Leaving `Fetching`: the ceiling test first (R140, decision D7), then the fetch range check (R141, decision D5), then
the fetch (R142). -/
def fetchStage (s : State) : State :=
  if s.steps = Config.stepCeiling then { s with phase := .ceilingHalted }
  else
    match fetchWord s with
    | none => enterFaulted s .fetchOutOfRange (position s.pc) (some s.pc)
    | some w => { s with phase := .decoding w }

/-- Leaving `Decoding` (R143). -/
def decodeStage (w : Word) (s : State) : State :=
  match decode w with
  | .unknownInstruction => enterFaulted s .unknownInstruction (position s.pc) none
  | .instr i => { s with phase := .executing i }

/-- One row of the transition table (R139). A terminal phase has none (60_exceptions.md R175). -/
def advance (s : State) : Host.Outcome State Fault Refusal :=
  match s.phase with
  | .fetching => .next (fetchStage s)
  | .decoding w => .next (decodeStage w s)
  | .executing i => exec i s
  | .halted => .fault .haltedHasNoStep
  | .ceilingHalted => .fault .ceilingHaltedHasNoStep
  | .faulted => .fault .faultedHasNoStep

/-- The phase is a stage inside a step: `Decoding` or `Executing` (R149). -/
def Phase.insideStep : Phase → Bool
  | .fetching => false
  | .decoding _ => true
  | .executing _ => true
  | .halted => false
  | .ceilingHalted => false
  | .faulted => false

/-- At most `n` further rows, as long as the phase is a stage inside a step. -/
def finishStep : Nat → State → Host.Outcome State Fault Refusal
  | 0, s => .next s
  | n + 1, s =>
    if s.phase.insideStep then
      match advance s with
      | .next t => finishStep n t
      | .fault r => .fault r
      | .refused r => .refused r
    else .next s

/-- The atomic step (R149): from a `Fetching` state to the next `Fetching` state or to a terminal phase. One row, then
the at most two that are left of the step. -/
def driverStep (s : State) : Host.Outcome State Fault Refusal :=
  match advance s with
  | .next t => finishStep 2 t
  | .fault r => .fault r
  | .refused r => .refused r

/-! ### Placing one word where the next fetch reads it (for the host's question) -/

/-- Program memory with `w` at word index `n`, made longer by zero words where it is too short. -/
def placeWord : List Word → Nat → Word → List Word
  | [], 0, w => [w]
  | _ :: p, 0, w => w :: p
  | [], n + 1, w => 0#32 :: placeWord [] n w
  | v :: p, n + 1, w => v :: placeWord p n w

/-- `s` with the word placed at its PC and everything the very next step needs to fetch it: phase `Fetching`, a PC that is
a multiple of 4, a step count below the ceiling. -/
def placeForFetch (s : State) (w : Word) : State :=
  let k := s.pc.toNat / 4
  { s with
    pc := BitVec.ofNat 32 (4 * k)
    phase := .fetching
    steps := if s.steps = Config.stepCeiling then 0 else s.steps
    prog := placeWord s.prog k w }

end Sys2Proof.Machine
end

