-- ==== Sys2Proof/Machine/Step.lean ====
section
/-! DEFINITION. One step of CORE (45_driver.md R148, R149), and the host's way to place an instruction for it. -/

namespace Sys2Proof.Machine

/-- One step: the driver's atomic step. -/
def step (s : State) : Host.Outcome State Fault Refusal := driverStep s

/-- The instruction whose bits are `w` (the `nbits` low ones) where the next step fetches; see `placeForFetch`. -/
def State.withFetchWord (s : State) (nbits w : Nat) : State := placeForFetch s (BitVec.ofNat 32 (w % 2 ^ nbits))

end Sys2Proof.Machine
end

