-- ==== Sys2Proof/Machine/Load.lean ====
section
/-! DEFINITION. The program input and its load check (45_driver.md R136 to R138, 70_reset_and_hazards.md R190), and the whole
run (R148). -/

namespace Sys2Proof.Machine

/-- A character of the program input as a bit; `none` for one outside '0' and '1' (decision D10). -/
def bitOfChar (c : Char) : Option Nat :=
  if c = '0' then some 0 else if c = '1' then some 1 else none

/-- The number a string of bits spells, the leftmost character the most significant (00_scope.md R7), on top of the
number `acc` read so far. -/
def bitsValue : Text → Nat → Option Nat
  | [], acc => some acc
  | c :: cs, acc =>
    match bitOfChar c with
    | some b => bitsValue cs (2 * acc + b)
    | none => none

/-- The word of one line, or `none` where the line fails the load check (R137): it must be 32 characters '0' or '1'. -/
def lineWord (line : Text) : Option Word :=
  if line.length = 32 then (bitsValue line 0).map (BitVec.ofNat 32) else none

/-- The result of the load check: the program words in order, or the position of the first failing line (decision D9). -/
inductive LoadCheck where
  | words (p : List Word)
  | malformed (position : Nat)
deriving DecidableEq, Repr

/-- The load check of the lines whose first has the given 1-based position. -/
def loadCheck : Nat → List Text → LoadCheck
  | _, [] => .words []
  | p, line :: rest =>
    match lineWord line with
    | none => .malformed p
    | some w =>
      match loadCheck (p + 1) rest with
      | .words ws => .words (w :: ws)
      | .malformed q => .malformed q

/-- The start of a run (R190): the input is checked; if it passes, program memory holds its words, every other piece of
state its reset value, and the phase is `Fetching` (R138); if not, the run is `Faulted(MalformedInput, p)` at once (R137),
and registers, PC and memory, which no output shows, stay at reset with no program. -/
def load (lines : List Text) : State :=
  match loadCheck 1 lines with
  | .words p => { State.reset with prog := p }
  | .malformed p => enterFaulted State.reset .malformedInput p none

/-- At most `n` steps, as long as a step exists. -/
def runSteps : Nat → State → State
  | 0, s => s
  | n + 1, s =>
    match step s with
    | .next t => runSteps n t
    | .fault _ => s
    | .refused _ => s

/-- The state in which the run of a program input ends (R148): one step more than the ceiling always suffices (R156). -/
def runProgram (lines : List Text) : State := runSteps (Config.stepCeiling + 1) (load lines)

end Sys2Proof.Machine
end

