-- ==== Sys2Proof/Machine/Output.lean ====
section
/-! DEFINITION. The three outputs of a run (00_scope.md R5): trace, dump and status (45_driver.md R150 to R154,
60_exceptions.md R165, R169, R170). -/

namespace Sys2Proof.Machine

/-! ### Trace (R150, R151) -/

/-- The 33 field values of a snapshot in their fixed order: the PC, then x0 … x31 (R150); the x0 field is always 0. -/
def snapshotFields (t : Snapshot) : List Word :=
  t.pc :: (List.range 32).map fun i => regGet t.regs (BitVec.ofNat 5 i)

/-- The `n` low bits of a number as '0' and '1', the most significant first. -/
def bitChars : Nat → Nat → Text
  | 0, _ => []
  | n + 1, v => (if v / 2 ^ n % 2 = 1 then '1' else '0') :: bitChars n v

/-- One field: `0b` and 32 binary digits, bit 31 first (R150). -/
def wordText (w : Word) : Text := '0' :: 'b' :: bitChars 32 w.toNat

/-- Fields separated by one space, none after the last (R150, decision D18). -/
def joinSpaced : List Text → Text
  | [] => []
  | [t] => t
  | t :: u :: rest => t ++ ' ' :: joinSpaced (u :: rest)

/-- One trace line with its newline (R150). -/
def snapshotLine (t : Snapshot) : Text := joinSpaced ((snapshotFields t).map wordText) ++ ['\n']

/-- The trace as text, one line per executed step (R151). -/
def traceText (tr : List Snapshot) : Text := (tr.map snapshotLine).flatten

/-! ### Dump (R152) -/

/-- The 32 data-region addresses in ascending order. -/
def dumpAddresses : List Word :=
  (List.range Config.dataSlots).map fun k => BitVec.ofNat 32 (Config.dataBase + 4 * k)

/-- The dump as data: each data-region address with the word its slot holds. The stack is not dumped (decision D21). -/
def dumpPairs (s : State) : List (Word × Word) :=
  dumpAddresses.map fun a => (a, (memRead s.mem a).getD unlistedWord)

/-- One hexadecimal digit. -/
def hexChar (upperCase : Bool) (d : Nat) : Char :=
  if d < 10 then Char.ofNat (48 + d) else if upperCase then Char.ofNat (55 + d) else Char.ofNat (87 + d)

/-- The `n` low hexadecimal digits of a number, leading zeros kept. -/
def hexChars (upperCase : Bool) : Nat → Nat → Text
  | 0, _ => []
  | n + 1, v => hexChar upperCase (v / 16 ^ n % 16) :: hexChars upperCase n v

/-- `addressToHex` (30_encoding.md R69): eight digits of the 32-bit address, in the open style (decision D14). -/
def addressToHex (style : HexStyle) (a : Word) : Text := style.before ++ hexChars style.upperCase 8 a.toNat

/-- One dump line, `<address-hex>:0b<32-bit-value>` (R152).

DESIGN CHOICE (log entry 17): every line of the dump, the last included, ends with one newline; R152 gives no terminator,
and decision D18 settles the newline for trace lines only. -/
def dumpLine (style : HexStyle) (p : Word × Word) : Text := addressToHex style p.1 ++ ':' :: wordText p.2 ++ ['\n']

/-- The dump as text, in the style the machine has. -/
def dumpText (s : State) : Text := ((dumpPairs s).map (dumpLine Config.hexStyle)).flatten

/-! ### Status (00_scope.md R5, 45_driver.md R153, R154) -/

/-- The terminal state of a run. -/
inductive Status where
  | halted
  | ceilingHalted
  | faulted (kind : FaultKind) (position : Nat)
deriving DecidableEq, Repr

/-- The event kind a status reports; a clean halt reports none (60_exceptions.md R165, R169). -/
def Status.kind : Status → Option FaultKind
  | .halted => none
  | .ceilingHalted => some .safetyCeilingExceeded
  | .faulted k _ => some k

/-- The numeric code of a status; 0 for a clean halt (60_exceptions.md R174, decision D15). -/
def Status.code (st : Status) : Nat :=
  match st.kind with
  | none => 0
  | some k => k.code

/-- The status of a state; `none` while the run goes on. -/
def statusOf (s : State) : Option Status :=
  match s.phase with
  | .fetching => none
  | .decoding _ => none
  | .executing _ => none
  | .halted => some .halted
  | .ceilingHalted => some .ceilingHalted
  | .faulted => s.faultRecord.map fun r => .faulted r.kind r.position

/-- The products a terminal phase emits (R153). -/
structure Products where
  trace : Option (List Snapshot)
  dump : Option (List (Word × Word))
  status : Status
deriving DecidableEq, Repr

/-- R153: trace and dump on `Halted` and `CeilingHalted` (decision D8), neither on `Faulted`. -/
def productsOf (s : State) : Option Products :=
  (statusOf s).map fun st =>
    match st with
    | .halted => ⟨some s.trace, some (dumpPairs s), .halted⟩
    | .ceilingHalted => ⟨some s.trace, some (dumpPairs s), .ceilingHalted⟩
    | .faulted k p => ⟨none, none, .faulted k p⟩

/-- The single diagnostic line of a fault, in the open wording DIAG_TEXT (R154); none for another status. -/
def diagnosticOf : Status → Option Text
  | .halted => none
  | .ceilingHalted => none
  | .faulted k p => some (Config.diagText k p)

end Sys2Proof.Machine
end

