-- ==== Sys2Proof/Safety.lean ====
section
/-! DEFINITION. The terms claims are made in: what a committed step changes and what it leaves unchanged, what an entry into
`Faulted` is, and the invariant of a run. -/

namespace Sys2Proof.Safety

open Sys2Proof.Machine

/-- The address is one of the 64 slot addresses (20_memory.md R33, R34): a multiple of 4 inside one of the two regions. -/
def IsSlot (a : Word) : Prop :=
  a.toNat % 4 = 0 ∧ ((0x100 ≤ a.toNat ∧ a.toNat ≤ 0x17C) ∨ (0x10000 ≤ a.toNat ∧ a.toNat ≤ 0x1007C))

/-- Every register reads as before. -/
def SameRegisters (s t : State) : Prop := ∀ r, readReg t r = readReg s r

/-- Every data-space address reads as before. -/
def SameMemory (s t : State) : Prop := ∀ a, memRead t.mem a = memRead s.mem a

/-- The destination register reads as `v`, unless it is x0; every other register reads as before (10_state.md R12). -/
def OnlyRegister (s t : State) (rd : RegIdx) (v : Word) : Prop :=
  ∀ r, readReg t r = if r = rd ∧ r ≠ 0#5 then v else readReg s r

/-- The slot at `a` reads as `v`; every other address reads as before (20_memory.md R37). -/
def OnlySlot (s t : State) (a v : Word) : Prop :=
  memRead t.mem a = some v ∧ ∀ b, b ≠ a → memRead t.mem b = memRead s.mem b

/-- What every committed step does beside its writes (45_driver.md R145, R146): the PC and phase as said, the step
counted, a snapshot of the new PC and the new registers appended, program memory and fault record as before. -/
def Committed (s t : State) (pc : Word) (phase : Phase) : Prop :=
  t.pc = pc ∧ t.phase = phase ∧ t.steps = s.steps + 1 ∧
    (∃ sn : Snapshot, t.trace = s.trace ++ [sn] ∧ sn.pc = t.pc ∧ ∀ r, regGet sn.regs r = readReg t r) ∧
    t.prog = s.prog ∧ t.faultRecord = s.faultRecord

/-- A committed step that writes `v` to `rd`, stores nothing and goes on at `pc`. -/
def WritesRegister (s t : State) (rd : RegIdx) (v pc : Word) : Prop :=
  OnlyRegister s t rd v ∧ SameMemory s t ∧ Committed s t pc .fetching

/-- A committed step that writes no register, stores nothing and goes on at `pc`. -/
def OnlyJumps (s t : State) (pc : Word) : Prop :=
  SameRegisters s t ∧ SameMemory s t ∧ Committed s t pc .fetching

/-- A committed step that writes no register, stores `v` at `a` and goes on at `pc`. -/
def StoresWord (s t : State) (a v pc : Word) : Prop :=
  SameRegisters s t ∧ OnlySlot s t a v ∧ Committed s t pc .fetching

/-- The halting commit (45_driver.md R146): no write, the PC unchanged, the step counted and traced, phase `Halted`. -/
def Halts (s t : State) : Prop :=
  SameRegisters s t ∧ SameMemory s t ∧ Committed s t s.pc .halted

/-- The entry into `Faulted` (60_exceptions.md R170 to R172): the phase, the record and the empty trace; no register, slot,
PC, step count or program word changes. -/
def EntersFaulted (s t : State) (kind : FaultKind) (pos : Nat) (aux : Option Word) : Prop :=
  t.phase = .faulted ∧ t.faultRecord = some ⟨kind, pos, aux⟩ ∧ t.trace = [] ∧
    SameRegisters s t ∧ SameMemory s t ∧ t.pc = s.pc ∧ t.steps = s.steps ∧ t.prog = s.prog

/-- The run has ended (45_driver.md R156). -/
def Ended (s : State) : Prop := s.phase = .halted ∨ s.phase = .ceilingHalted ∨ s.phase = .faulted

/-- The invariant of a run, at the end of every step. -/
structure Consistent (s : State) : Prop where
  /-- memory is in canonical form: only slots, rising addresses, no listed 0 (10_state.md R18, R19) -/
  memory : Memory.wf s.mem
  /-- 0 ≤ steps ≤ 10000 (10_state.md R23) -/
  ceiling : s.steps ≤ 10000
  /-- no step is left half done (45_driver.md R149) -/
  boundary : s.phase = .fetching ∨ Ended s
  /-- the trace has one snapshot per executed step (10_state.md R23), and none after a fault (60_exceptions.md R171) -/
  traceLength : s.trace.length = if s.phase = .faulted then 0 else s.steps
  /-- the last snapshot shows the present PC and registers (45_driver.md R150) -/
  lastSnapshot : ∀ sn, s.trace.getLast? = some sn → sn = ⟨s.pc, s.regs⟩
  /-- a fault record exists exactly in `Faulted` (10_state.md R28) -/
  record : s.faultRecord.isSome = true ↔ s.phase = .faulted
  /-- the ceiling phase is entered at the ceiling only (45_driver.md R140) -/
  atCeiling : s.phase = .ceilingHalted → s.steps = 10000
  /-- the PC is even (43_control_transfer.md R123) -/
  evenPc : s.pc.toNat % 2 = 0

/-- A line of the program input that passes the load check (45_driver.md R137): 32 characters, each '0' or '1'. -/
def LineOk (line : Text) : Prop := line.length = 32 ∧ ∀ c ∈ line, c = '0' ∨ c = '1'

/-- The destination register field of an instruction, if its row has one (10_state.md R14). -/
def destination : Instr → Option RegIdx
  | .add rd _ _ => some rd
  | .sub rd _ _ => some rd
  | .slt rd _ _ => some rd
  | .srl rd _ _ => some rd
  | .or rd _ _ => some rd
  | .and rd _ _ => some rd
  | .addi rd _ _ => some rd
  | .lw rd _ _ => some rd
  | .jalr rd _ _ => some rd
  | .sw _ _ _ => none
  | .beq _ _ _ => none
  | .bne _ _ _ => none
  | .blt _ _ _ => none
  | .jal rd _ => some rd

/-- The instruction raises `OutOfRangeAccess`: it is an lw or sw whose address is no slot (42_load_store.md R106, R107). -/
def RaisesOutOfRange (i : Instr) (s : State) : Prop :=
  ∃ rs1 imm, ((∃ rd, i = .lw rd rs1 imm) ∨ ∃ rs2, i = .sw rs1 rs2 imm) ∧
    ¬ IsSlot (BitVec.ofInt 32 ((readReg s rs1).toInt + imm.toInt))

/-- The instruction is the halt pattern: a beq with equal register fields and offset 0 (43_control_transfer.md R130,
decision D3). -/
def IsHaltPattern (i : Instr) : Prop := ∃ r, i = .beq r r 0

/-- The source register fields of an instruction (10_state.md R14). -/
def sources : Instr → List RegIdx
  | .add _ rs1 rs2 => [rs1, rs2]
  | .sub _ rs1 rs2 => [rs1, rs2]
  | .slt _ rs1 rs2 => [rs1, rs2]
  | .srl _ rs1 rs2 => [rs1, rs2]
  | .or _ rs1 rs2 => [rs1, rs2]
  | .and _ rs1 rs2 => [rs1, rs2]
  | .addi _ rs1 _ => [rs1]
  | .lw _ rs1 _ => [rs1]
  | .jalr _ rs1 _ => [rs1]
  | .sw rs1 rs2 _ => [rs1, rs2]
  | .beq rs1 rs2 _ => [rs1, rs2]
  | .bne rs1 rs2 _ => [rs1, rs2]
  | .blt rs1 rs2 _ => [rs1, rs2]
  | .jal _ _ => []

/-- `u` comes from `s` by executing instructions, none of which is a sw that forms the address `a` (42_load_store.md R108:
"no other store to `a` between them"). -/
inductive NoStoreTo (a : Word) (s : State) : State → Prop
  /-- nothing has executed -/
  | start : NoStoreTo a s s
  /-- one more instruction has executed -/
  | exec (t u : State) (i : Instr) : NoStoreTo a s t → Machine.exec i t = .next u →
      (∀ rs1 rs2 imm, i = .sw rs1 rs2 imm → BitVec.ofInt 32 ((readReg t rs1).toInt + imm.toInt) ≠ a) → NoStoreTo a s u

/-- `n` rows of the driver's transition table, one after the other (45_driver.md R139); `none` where one has none. -/
def rows : Nat → State → Option State
  | 0, s => some s
  | n + 1, s =>
    match advance s with
    | .next t => rows n t
    | .fault _ => none
    | .refused _ => none

end Sys2Proof.Safety
end

