-- ==== Sys2Proof/Certificates/Slice0/Obligations.lean ====
section
/-! DEFINITION. The statements for the provers, from the spec's numbered rules. The arithmetic of a result is written with
the library's own functions (`toInt`, `toNat`, `BitVec.ofInt`), not with the model's. -/

open Sys2Proof Sys2Proof.Machine Sys2Proof.Safety

/-! ### Encoding -/

/-- Words that 95_test_vectors.md spells out decode to the instructions it gives for them, at least one of each family;
words it lists as outside the table do not decode. -/
def Obligations.SpecWordsDecode : Prop :=
  (∀ p ∈ ([(0x006283B3#32, .add 7 5 6), (0x40A00633#32, .sub 12 0 10), (0x00A656B3#32, .srl 13 12 10),
      (0xFB300093#32, .addi 1 0 (-77)), (0x0002A303#32, .lw 6 5 0), (0x06B2AE23#32, .sw 5 11 124),
      (0xFFC280E7#32, .jalr 1 5 (-4)), (0x002080E3#32, .beq 1 2 2048), (0xFE031CE3#32, .bne 6 0 (-8)),
      (0x000010EF#32, .jal 1 4096), (0xFF9FF2EF#32, .jal 5 (-8))] : List (Word × Instr)), decode p.1 = .instr p.2) ∧
  ∀ w ∈ ([0x00000000#32, 0xFFFFFFFF#32, 0x02000033#32, 0x00001013#32, 0x00002063#32] : List Word),
    decode w = .unknownInstruction

/-- R61: a word decodes to the mnemonic and type of the row it selects by match and mask, to nothing where it selects none,
and no word selects two rows. -/
def Obligations.DecodeIsMatchMaskTable : Prop :=
  ∀ w : Word,
    (match decode w with
      | .instr i => some (i.mnemonic, i.format)
      | .unknownInstruction => none) =
        (decodeTable.find? fun r => r.selects w).map (fun r => (r.mnemonic, r.format)) ∧
    ∀ r₁ ∈ decodeTable, ∀ r₂ ∈ decodeTable, r₁.selects w = true → r₂.selects w = true → r₁ = r₂

/-- R56 to R59: the raw immediates of the four formats, their signed values and ranges, with the bits of the word written
as digits of its unsigned reading; B and J offsets are even. -/
def Obligations.ImmediatesAreAssembled : Prop :=
  ∀ w : Word, let u := w.toNat;
    (immIOf w).toNat = u / 2 ^ 20 ∧
    (immSOf w).toNat = u / 2 ^ 25 * 2 ^ 5 + u / 2 ^ 7 % 2 ^ 5 ∧
    (immBOf w).toNat = u / 2 ^ 31 * 2 ^ 12 + u / 2 ^ 7 % 2 * 2 ^ 11 + u / 2 ^ 25 % 2 ^ 6 * 2 ^ 5 + u / 2 ^ 8 % 2 ^ 4 * 2 ∧
    (immJOf w).toNat =
      u / 2 ^ 31 * 2 ^ 20 + u / 2 ^ 12 % 2 ^ 8 * 2 ^ 12 + u / 2 ^ 20 % 2 * 2 ^ 11 + u / 2 ^ 21 % 2 ^ 10 * 2 ∧
    (let z := signed (sext (immIOf w));
      z = (if (immIOf w).toNat < 2 ^ 11 then ((immIOf w).toNat : Int) else (immIOf w).toNat - 2 ^ 12) ∧
        -2048 ≤ z ∧ z ≤ 2047) ∧
    (let z := signed (sext (immSOf w));
      z = (if (immSOf w).toNat < 2 ^ 11 then ((immSOf w).toNat : Int) else (immSOf w).toNat - 2 ^ 12) ∧
        -2048 ≤ z ∧ z ≤ 2047) ∧
    (let z := signed (sext (immBOf w));
      z = (if (immBOf w).toNat < 2 ^ 12 then ((immBOf w).toNat : Int) else (immBOf w).toNat - 2 ^ 13) ∧
        -4096 ≤ z ∧ z ≤ 4094 ∧ z % 2 = 0) ∧
    (let z := signed (sext (immJOf w));
      z = (if (immJOf w).toNat < 2 ^ 20 then ((immJOf w).toNat : Int) else (immJOf w).toNat - 2 ^ 21) ∧
        -1048576 ≤ z ∧ z ≤ 1048574 ∧ z % 2 = 0)

/-- Every well-formed instruction, with every operand at every value its encoding admits, decodes from its own word (R68
is the inverse of R51, R56 to R59, an inference the spec marks as its own). -/
def Obligations.EncodedInstructionDecodesToItself : Prop :=
  ∀ i : Instr, WellFormed i → decode (encode i) = .instr i

/-- A word that decodes is the word of the instruction it decodes to, in every bit the decoder examines: all 32 for ten
rows, all but `w[31:25]` for slt, srl, or, and (decision D2). -/
def Obligations.DecodedInstructionEncodesToItsWord : Prop :=
  ∀ (w : Word) (i : Instr), decode w = .instr i → WellFormed i ∧
    ∀ k, k < 32 → (k < 25 ∨ i.mnemonic ∉ ["slt", "srl", "or", "and"]) → (encode i).getLsbD k = w.getLsbD k

/-- R62: under opcode 0110011 and funct3 000 funct7 alone tells add from sub, and its other 126 values are
`UnknownInstruction`. -/
def Obligations.Funct7TellsAddFromSub : Prop :=
  ∀ w : Word, w.extractLsb' 0 7 = 0b0110011#7 → w.extractLsb' 12 3 = 0b000#3 →
    decode w =
      if w.extractLsb' 25 7 = 0b0000000#7 then
        .instr (.add (w.extractLsb' 7 5) (w.extractLsb' 15 5) (w.extractLsb' 20 5))
      else if w.extractLsb' 25 7 = 0b0100000#7 then
        .instr (.sub (w.extractLsb' 7 5) (w.extractLsb' 15 5) (w.extractLsb' 20 5))
      else .unknownInstruction

/-- Decision D2 of the spec: under opcode 0110011 with funct3 010, 101, 110 or 111 the word decodes, and two words that
agree below bit 25 decode alike. -/
def Obligations.Funct7NotExaminedOtherwise : Prop :=
  ∀ w w' : Word, w.extractLsb' 0 7 = 0b0110011#7 →
    (w.extractLsb' 12 3 = 0b010#3 ∨ w.extractLsb' 12 3 = 0b101#3 ∨ w.extractLsb' 12 3 = 0b110#3 ∨
      w.extractLsb' 12 3 = 0b111#3) →
    w'.extractLsb' 0 25 = w.extractLsb' 0 25 → decode w' = decode w ∧ decode w ≠ .unknownInstruction

/-- Decision D3 of the spec: the halt pattern, as a property of the word, in its three forms: by the decoder, by the mask
0xFE007FFF with equal register fields, and as the 32 words 0x00000063 + r·0x00108000. -/
def Obligations.HaltPatternWords : Prop :=
  ∀ w : Word,
    (isHalt w = true ↔ ∃ r, decode w = .instr (.beq r r 0)) ∧
    (isHalt w = true ↔ w &&& 0xFE007FFF#32 = 0x00000063#32 ∧ w.extractLsb' 15 5 = w.extractLsb' 20 5) ∧
    (isHalt w = true ↔ ∃ r, r < 32 ∧ w = BitVec.ofNat 32 (0x00000063 + r * 0x00108000))

/-! ### Codec and arithmetic -/

/-- R54: `encodeSigned32` gives z or 2^32 + z, is `u32` on its range, and round-trips both ways; outside the range `u32`
keeps the value modulo 2^32. -/
def Obligations.TwosComplementRoundTrip : Prop :=
  (∀ z : Int, -2 ^ 31 ≤ z → z < 2 ^ 31 →
    ((encodeSigned32 z).toNat : Int) = (if 0 ≤ z then z else 2 ^ 32 + z) ∧
      signed (encodeSigned32 z) = z ∧ encodeSigned32 z = u32 z) ∧
  (∀ w : Word, u32 (signed w) = w ∧ encodeSigned32 (signed w) = w) ∧
  ∀ z : Int, ((u32 z).toNat : Int) = z % 2 ^ 32

/-- R55: sign extension copies bit N − 1 into bits 31 … N and keeps the field's signed reading, for every width that
occurs and every other up to 32. -/
def Obligations.SignExtendKeepsSignedReading : Prop :=
  ∀ (n : Nat) (v : BitVec n), 1 ≤ n → n ≤ 32 →
    (signed (sext v) = if v.getLsbD (n - 1) then (v.toNat : Int) - 2 ^ n else v.toNat) ∧
    signed (sext v) = decodeTwosComplement v ∧
    ∀ k, k < 32 → (sext v).getLsbD k = v.getLsbD (if k < n then k else n - 1)

/-- R89: sub undoes add modulo 2^32, as the law on words and through the two instructions. -/
def Obligations.SubUndoesAdd : Prop :=
  (∀ a b : Word, u32 (signed (u32 (signed a + signed b)) - signed b) = a) ∧
  ∀ (s : State) (rd rs1 rs2 : RegIdx), rd ≠ 0#5 → rd ≠ rs2 →
    ∃ t u, exec (.add rd rs1 rs2) s = .next t ∧ exec (.sub rd rd rs2) t = .next u ∧ readReg u rd = readReg s rs1

/-! ### ALU -/

/-- R83: the encoding, the wrapped sum, and that nothing else but the PC, the count and the trace changes. -/
def Obligations.AddWritesWrappedSum : Prop :=
  (∀ w : Word, w &&& 0xFE00707F#32 = 0x00000033#32 →
    decode w = .instr (.add (w.extractLsb' 7 5) (w.extractLsb' 15 5) (w.extractLsb' 20 5))) ∧
  ∀ (s : State) (rd rs1 rs2 : RegIdx), ∃ t, exec (.add rd rs1 rs2) s = .next t ∧
    WritesRegister s t rd (BitVec.ofInt 32 ((readReg s rs1).toInt + (readReg s rs2).toInt)) (s.pc + 4#32)

/-- R84: the encoding, the wrapped difference, and the frame. -/
def Obligations.SubWritesWrappedDifference : Prop :=
  (∀ w : Word, w &&& 0xFE00707F#32 = 0x40000033#32 →
    decode w = .instr (.sub (w.extractLsb' 7 5) (w.extractLsb' 15 5) (w.extractLsb' 20 5))) ∧
  ∀ (s : State) (rd rs1 rs2 : RegIdx), ∃ t, exec (.sub rd rs1 rs2) s = .next t ∧
    WritesRegister s t rd (BitVec.ofInt 32 ((readReg s rs1).toInt - (readReg s rs2).toInt)) (s.pc + 4#32)

/-- slt: the encoding with funct7 not examined (decision D2), the signed comparison on the exact values, and the frame. -/
def Obligations.SltWritesSignedComparison : Prop :=
  (∀ w : Word, w &&& 0x0000707F#32 = 0x00002033#32 →
    decode w = .instr (.slt (w.extractLsb' 7 5) (w.extractLsb' 15 5) (w.extractLsb' 20 5))) ∧
  ∀ (s : State) (rd rs1 rs2 : RegIdx), ∃ t, exec (.slt rd rs1 rs2) s = .next t ∧
    WritesRegister s t rd (if (readReg s rs1).toInt < (readReg s rs2).toInt then 1#32 else 0#32) (s.pc + 4#32)

/-- srl: the encoding with funct7 not examined (decision D2), the quotient by 2^sh with sh the low 5 bits of `x[rs2]`, and
the frame. -/
def Obligations.SrlShiftsByLowFiveBits : Prop :=
  (∀ w : Word, w &&& 0x0000707F#32 = 0x00005033#32 →
    decode w = .instr (.srl (w.extractLsb' 7 5) (w.extractLsb' 15 5) (w.extractLsb' 20 5))) ∧
  ∀ (s : State) (rd rs1 rs2 : RegIdx), ∃ t, exec (.srl rd rs1 rs2) s = .next t ∧
    WritesRegister s t rd (BitVec.ofNat 32 ((readReg s rs1).toNat / 2 ^ ((readReg s rs2).toNat % 32))) (s.pc + 4#32)

/-- or: the encoding with funct7 not examined (decision D2), the result bit by bit, and the frame. -/
def Obligations.OrIsBitwise : Prop :=
  (∀ w : Word, w &&& 0x0000707F#32 = 0x00006033#32 →
    decode w = .instr (.or (w.extractLsb' 7 5) (w.extractLsb' 15 5) (w.extractLsb' 20 5))) ∧
  ∀ (s : State) (rd rs1 rs2 : RegIdx), ∃ t v, exec (.or rd rs1 rs2) s = .next t ∧
    (∀ k, k < 32 → v.getLsbD k = ((readReg s rs1).getLsbD k || (readReg s rs2).getLsbD k)) ∧
    WritesRegister s t rd v (s.pc + 4#32)

/-- and: the encoding with funct7 not examined (decision D2), the result bit by bit, and the frame. -/
def Obligations.AndIsBitwise : Prop :=
  (∀ w : Word, w &&& 0x0000707F#32 = 0x00007033#32 →
    decode w = .instr (.and (w.extractLsb' 7 5) (w.extractLsb' 15 5) (w.extractLsb' 20 5))) ∧
  ∀ (s : State) (rd rs1 rs2 : RegIdx), ∃ t v, exec (.and rd rs1 rs2) s = .next t ∧
    (∀ k, k < 32 → v.getLsbD k = ((readReg s rs1).getLsbD k && (readReg s rs2).getLsbD k)) ∧
    WritesRegister s t rd v (s.pc + 4#32)

/-- R100: the encoding, the wrapped sum with the sign-extended immediate, and the frame. -/
def Obligations.AddiAddsSignedImmediate : Prop :=
  (∀ w : Word, w &&& 0x0000707F#32 = 0x00000013#32 →
    decode w = .instr (.addi (w.extractLsb' 7 5) (w.extractLsb' 15 5) (w.extractLsb' 20 12))) ∧
  ∀ (s : State) (rd rs1 : RegIdx) (imm : BitVec 12), ∃ t, exec (.addi rd rs1 imm) s = .next t ∧
    WritesRegister s t rd (BitVec.ofInt 32 ((readReg s rs1).toInt + imm.toInt)) (s.pc + 4#32)

/-! ### Load and store -/

/-- R33: an address resolves to a stack slot, to a data slot or to nothing, by its unsigned reading; reads and writes
succeed exactly at the slots. -/
def Obligations.ResolveExactlyTheSlots : Prop :=
  ∀ a : Word,
    (resolve a = some (.stack a) ↔ a.toNat % 4 = 0 ∧ 0x100 ≤ a.toNat ∧ a.toNat ≤ 0x17C) ∧
    (resolve a = some (.data a) ↔ a.toNat % 4 = 0 ∧ 0x10000 ≤ a.toNat ∧ a.toNat ≤ 0x1007C) ∧
    (resolve a = none ↔ ¬ IsSlot a) ∧
    ∀ m v, ((memRead m a).isSome = true ↔ IsSlot a) ∧ ((memWrite m a v).isSome = true ↔ IsSlot a)

/-- R106: the encoding; at a slot the whole word goes to `x[rd]`, 0 where no stored word is listed; anywhere else the machine enters
`Faulted(OutOfRangeAccess, pc/4 + 1)` with `x[rd]` and the PC unchanged, whatever rd is. That the record's auxiliary word is
the address is the model's (log entry 10): R168 and R170 let a model keep or drop it. -/
def Obligations.LwLoadsOrFaults : Prop :=
  (∀ w : Word, w &&& 0x0000707F#32 = 0x00002003#32 →
    decode w = .instr (.lw (w.extractLsb' 7 5) (w.extractLsb' 15 5) (w.extractLsb' 20 12))) ∧
  ∀ (s : State) (rd rs1 : RegIdx) (imm : BitVec 12),
    let a := BitVec.ofInt 32 ((readReg s rs1).toInt + imm.toInt)
    (IsSlot a → ∃ t v, memRead s.mem a = some v ∧ ((∀ c ∈ s.mem, c.1 ≠ a.toNat) → v = 0#32) ∧
      exec (.lw rd rs1 imm) s = .next t ∧ WritesRegister s t rd v (s.pc + 4#32)) ∧
    (¬ IsSlot a → ∃ t, exec (.lw rd rs1 imm) s = .next t ∧
      EntersFaulted s t .outOfRangeAccess (s.pc.toNat / 4 + 1) (some a))

/-- R107: the encoding; at a slot exactly that slot changes and takes all 32 bits of `x[rs2]`, no register is written;
anywhere else the machine enters `Faulted(OutOfRangeAccess, pc/4 + 1)` with no slot and not the PC changed. Memory is in
its canonical form, as `StepKeepsConsistent` shows it to stay. That the record's auxiliary word is the address is the
model's (log entry 10): R168 and R170 let a model keep or drop it. -/
def Obligations.SwStoresOrFaults : Prop :=
  (∀ w : Word, w &&& 0x0000707F#32 = 0x00002023#32 →
    decode w = .instr (.sw (w.extractLsb' 15 5) (w.extractLsb' 20 5) (w.extractLsb' 25 7 ++ w.extractLsb' 7 5))) ∧
  ∀ (s : State) (rs1 rs2 : RegIdx) (imm : BitVec 12), Memory.wf s.mem →
    let a := BitVec.ofInt 32 ((readReg s rs1).toInt + imm.toInt)
    (IsSlot a → ∃ t, exec (.sw rs1 rs2 imm) s = .next t ∧ StoresWord s t a (readReg s rs2) (s.pc + 4#32)) ∧
    (¬ IsSlot a → ∃ t, exec (.sw rs1 rs2 imm) s = .next t ∧
      EntersFaulted s t .outOfRangeAccess (s.pc.toNat / 4 + 1) (some a))

/-- R108: after a sw that succeeds at an address, a lw that forms the same address, with no other store to it between them,
loads exactly the stored word. -/
def Obligations.StoreThenLoadReturnsWord : Prop :=
  ∀ (s t u : State) (rs1 rs2 rd rb : RegIdx) (imm imm' : BitVec 12) (a : Word), Memory.wf s.mem →
    BitVec.ofInt 32 ((readReg s rs1).toInt + imm.toInt) = a → exec (.sw rs1 rs2 imm) s = .next t → t.phase = .fetching →
    NoStoreTo a t u → BitVec.ofInt 32 ((readReg u rb).toInt + imm'.toInt) = a →
    ∃ v, exec (.lw rd rb imm') u = .next v ∧ OnlyRegister u v rd (readReg s rs2) ∧ v.phase = .fetching

/-! ### Control transfer -/

/-- jalr: the encoding, the link, the target with bit 0 cleared formed from the OLD `x[rs1]` (decision D11), and the
frame. -/
def Obligations.JalrLinksAndJumps : Prop :=
  (∀ w : Word, w &&& 0x0000707F#32 = 0x00000067#32 →
    decode w = .instr (.jalr (w.extractLsb' 7 5) (w.extractLsb' 15 5) (w.extractLsb' 20 12))) ∧
  ∀ (s : State) (rd rs1 : RegIdx) (imm : BitVec 12), ∃ t pc, exec (.jalr rd rs1 imm) s = .next t ∧
    WritesRegister s t rd (s.pc + 4#32) pc ∧
    pc.toNat = ((((readReg s rs1).toNat : Int) + imm.toInt) % 2 ^ 32).toNat / 2 * 2

/-- beq: the encoding; the halt pattern by the register fields (decision D3), counted and traced (decision D6); every
other beq branches on equality of the two patterns. -/
def Obligations.BeqBranchesOrHalts : Prop :=
  (∀ w : Word, w &&& 0x0000707F#32 = 0x00000063#32 →
    ∃ off, decode w = .instr (.beq (w.extractLsb' 15 5) (w.extractLsb' 20 5) off) ∧ off = immBOf w) ∧
  ∀ (s : State) (rs1 rs2 : RegIdx) (off : BitVec 13),
    (rs1 = rs2 → off = 0 → ∃ t, exec (.beq rs1 rs2 off) s = .next t ∧ Halts s t) ∧
    (rs1 ≠ rs2 ∨ off ≠ 0 → ∃ t, exec (.beq rs1 rs2 off) s = .next t ∧
      OnlyJumps s t (if readReg s rs1 = readReg s rs2 then BitVec.ofInt 32 ((s.pc.toNat : Int) + off.toInt)
        else s.pc + 4#32))

/-- R121: the encoding and the branch on inequality of the two patterns; never a halt. -/
def Obligations.BneBranches : Prop :=
  (∀ w : Word, w &&& 0x0000707F#32 = 0x00001063#32 →
    decode w = .instr (.bne (w.extractLsb' 15 5) (w.extractLsb' 20 5) (immBOf w))) ∧
  ∀ (s : State) (rs1 rs2 : RegIdx) (off : BitVec 13), ∃ t, exec (.bne rs1 rs2 off) s = .next t ∧
    OnlyJumps s t (if readReg s rs1 ≠ readReg s rs2 then BitVec.ofInt 32 ((s.pc.toNat : Int) + off.toInt)
      else s.pc + 4#32)

/-- R122: the encoding and the branch on the signed comparison; never a halt. -/
def Obligations.BltBranches : Prop :=
  (∀ w : Word, w &&& 0x0000707F#32 = 0x00004063#32 →
    decode w = .instr (.blt (w.extractLsb' 15 5) (w.extractLsb' 20 5) (immBOf w))) ∧
  ∀ (s : State) (rs1 rs2 : RegIdx) (off : BitVec 13), ∃ t, exec (.blt rs1 rs2 off) s = .next t ∧
    OnlyJumps s t (if (readReg s rs1).toInt < (readReg s rs2).toInt then
        BitVec.ofInt 32 ((s.pc.toNat : Int) + off.toInt) else s.pc + 4#32)

/-- R118: the encoding, the link and the PC-relative jump, both from the address of the jal itself; never a halt. -/
def Obligations.JalLinksAndJumps : Prop :=
  (∀ w : Word, w &&& 0x0000007F#32 = 0x0000006F#32 → decode w = .instr (.jal (w.extractLsb' 7 5) (immJOf w))) ∧
  ∀ (s : State) (rd : RegIdx) (off : BitVec 21), ∃ t, exec (.jal rd off) s = .next t ∧
    WritesRegister s t rd (s.pc + 4#32) (BitVec.ofInt 32 ((s.pc.toNat : Int) + off.toInt))

/-! ### Rules over all instructions -/

/-- Of all instructions only a beq with equal register fields and offset 0 halts (decision D3), and only an lw or sw whose
address is no slot faults; every other execution goes on at the next fetch. -/
def Obligations.OnlyBeqHaltsOnlyLoadStoreFaults : Prop :=
  ∀ (i : Instr) (s : State), ∃ t, exec i s = .next t ∧
    (t.phase = .halted ↔ ∃ r, i = .beq r r 0) ∧
    (t.phase = .faulted ↔ ∃ rs1 imm, ((∃ rd, i = .lw rd rs1 imm) ∨ ∃ rs2, i = .sw rs1 rs2 imm) ∧
      ¬ IsSlot (BitVec.ofInt 32 ((readReg s rs1).toInt + imm.toInt))) ∧
    (t.phase = .halted ∨ t.phase = .faulted ∨ t.phase = .fetching)

/-- R11 and R12 over all instructions: an instruction whose destination is x0 changes no register, and x0 reads as 0. -/
def Obligations.X0DestinationDiscards : Prop :=
  ∀ (i : Instr) (s : State), destination i = some 0 →
    ∃ t, exec i s = .next t ∧ SameRegisters s t ∧ readReg t 0 = 0

/-- R14: an instruction changes no register but the destination its row has, and what it does depends on no register but
its sources. -/
def Obligations.RegisterUseTable : Prop :=
  (∀ (i : Instr) (s : State), ∃ t, exec i s = .next t ∧ ∀ r, destination i ≠ some r → readReg t r = readReg s r) ∧
  ∀ (i : Instr) (s s' : State), s'.pc = s.pc → s'.mem = s.mem → (∀ r ∈ sources i, readReg s' r = readReg s r) →
    ∃ t t', exec i s = .next t ∧ exec i s' = .next t' ∧ t'.pc = t.pc ∧ t'.mem = t.mem ∧ t'.phase = t.phase ∧
      (t.phase ≠ .faulted → ∀ r, destination i = some r → readReg t' r = readReg t r)

/-- Slots are changed by store instructions only (10_state.md section 3): whatever else executes, every address reads as
before. -/
def Obligations.OnlySwChangesMemory : Prop :=
  ∀ (i : Instr) (s : State), (∀ rs1 rs2 imm, i ≠ .sw rs1 rs2 imm) →
    ∃ t, exec i s = .next t ∧ t.mem = s.mem ∧ SameMemory s t

/-! ### The driver -/

/-- A step from `Fetching` below the ceiling, at a PC where a program word lives that decodes, is exactly the execution of
the decoded instruction, with nothing around it. -/
def Obligations.StepRunsDecodedInstruction : Prop :=
  ∀ (s : State) (w : Word) (i : Instr), s.phase = .fetching → s.steps ≠ 10000 → s.pc.toNat % 4 = 0 →
    s.prog[s.pc.toNat / 4]? = some w → decode w = .instr i → step s = exec i s

/-- At the ceiling the run is cut before any fetch, whatever the PC and the program (decision D7); registers, memory, PC,
count and trace stay and the products are emitted (decision D8). -/
def Obligations.CeilingEndsRun : Prop :=
  ∀ s : State, s.phase = .fetching → s.steps = 10000 →
    ∃ t, step s = .next t ∧ t = { s with phase := .ceilingHalted } ∧
      productsOf t = some ⟨some s.trace, some (dumpPairs s), .ceilingHalted⟩

/-- Below the ceiling a PC that is no multiple of 4, or at or beyond 4·N, enters `Faulted(FetchOutOfRange, pc/4 + 1)`
(decision D5), with the PC as the auxiliary word. -/
def Obligations.FetchOutsideProgramFaults : Prop :=
  ∀ s : State, s.phase = .fetching → s.steps ≠ 10000 → (s.pc.toNat % 4 ≠ 0 ∨ s.prog.length ≤ s.pc.toNat / 4) →
    ∃ t, step s = .next t ∧ EntersFaulted s t .fetchOutOfRange (s.pc.toNat / 4 + 1) (some s.pc)

/-- R143: a fetched word outside the table enters `Faulted(UnknownInstruction, pc/4 + 1)`; a word inside it makes the phase
`Executing` with the decoded instruction, and decoding changes nothing else. -/
def Obligations.UnknownWordFaults : Prop :=
  (∀ (s : State) (w : Word), s.phase = .fetching → s.steps ≠ 10000 → s.pc.toNat % 4 = 0 →
    s.prog[s.pc.toNat / 4]? = some w → decode w = .unknownInstruction →
    ∃ t, step s = .next t ∧ EntersFaulted s t .unknownInstruction (s.pc.toNat / 4 + 1) none) ∧
  ∀ (s : State) (w : Word) (i : Instr), s.phase = .decoding w → decode w = .instr i →
    advance s = .next { s with phase := .executing i }

/-- A step exists from every phase but the terminal three (decision D19), where none does; no step is ever refused, and
running on from a terminal phase changes nothing. -/
def Obligations.TerminalPhasesHaveNoStep : Prop :=
  ∀ s : State, (Ended s ↔ ∃ r, step s = .fault r) ∧ (¬ Ended s ↔ ∃ t, step s = .next t) ∧
    (Ended s → ∀ n, runSteps n s = s)

/-- The eleven rows of the driver's transition table, in its order, one clause per row (45_driver.md section 3). Choices they
rest on, the spec's own: the first malformed line and the halting step counted, the halt words, the ceiling before the fetch
check (decisions D9, D6, D3, D7: log entry 9); a bad character as malformed, the fetch fault, precise faults, no row from a
terminal phase (decisions D10, D5, D12, D19: log entry 15). The auxiliary word of a record is log entry 10, the state at a
malformed input log entry 5. -/
def Obligations.TransitionTableRows : Prop :=
  (∀ (lines : List Text) (j : Nat) (l : Text), lines[j]? = some l → ¬ LineOk l →
    (∀ (q : Nat) (early : Text), q < j → lines[q]? = some early → LineOk early) →
    EntersFaulted State.reset (load lines) .malformedInput (j + 1) none) ∧
  (∀ lines : List Text, (∀ l ∈ lines, LineOk l) →
    ∃ p : List Word, p.length = lines.length ∧ load lines = { State.reset with prog := p, phase := .fetching }) ∧
  ∀ s : State,
    (s.phase = .fetching → s.steps = 10000 → advance s = .next { s with phase := .ceilingHalted }) ∧
    (s.phase = .fetching → s.steps ≠ 10000 → (s.pc.toNat % 4 ≠ 0 ∨ s.prog.length ≤ s.pc.toNat / 4) →
      ∃ t, advance s = .next t ∧ EntersFaulted s t .fetchOutOfRange (s.pc.toNat / 4 + 1) (some s.pc)) ∧
    (s.phase = .fetching → s.steps ≠ 10000 → s.pc.toNat % 4 = 0 → ∀ w, s.prog[s.pc.toNat / 4]? = some w →
      advance s = .next { s with phase := .decoding w }) ∧
    (∀ w, s.phase = .decoding w → decode w = .unknownInstruction →
      ∃ t, advance s = .next t ∧ EntersFaulted s t .unknownInstruction (s.pc.toNat / 4 + 1) none) ∧
    (∀ w i, s.phase = .decoding w → decode w = .instr i → advance s = .next { s with phase := .executing i }) ∧
    (∀ i, s.phase = .executing i → RaisesOutOfRange i s →
      ∃ t aux, advance s = .next t ∧ EntersFaulted s t .outOfRangeAccess (s.pc.toNat / 4 + 1) aux) ∧
    (∀ i, s.phase = .executing i → ¬ RaisesOutOfRange i s → ¬ IsHaltPattern i →
      ∃ t pc, advance s = .next t ∧ exec i s = .next t ∧ Committed s t pc .fetching) ∧
    (∀ i, s.phase = .executing i → IsHaltPattern i → ∃ t, advance s = .next t ∧ Halts s t) ∧
    (Ended s → ∃ r, advance s = .fault r)

/-- The atomic step is the run of the transition table to the end of the step: one to three rows, through stages inside the
step only, ending outside. -/
def Obligations.AtomicStepIsTableRun : Prop :=
  ∀ s t : State, step s = .next t ↔
    ∃ n, 1 ≤ n ∧ n ≤ 3 ∧ rows n s = some t ∧ t.phase.insideStep = false ∧
      ∀ k, 1 ≤ k → k < n → ∃ u, rows k s = some u ∧ u.phase.insideStep = true

/-- Every step that enters `Faulted` changes no register, slot, PC, step count or program word (decision D12), records the
kind and the position pc/4 + 1, discards the trace, and leaves neither trace nor dump among the products. -/
def Obligations.FaultEntryIsPrecise : Prop :=
  ∀ s t : State, s.phase = .fetching → step s = .next t → t.phase = .faulted →
    ∃ kind aux, (kind = .unknownInstruction ∨ kind = .outOfRangeAccess ∨ kind = .fetchOutOfRange) ∧
      EntersFaulted s t kind (s.pc.toNat / 4 + 1) aux ∧
      productsOf t = some ⟨none, none, .faulted kind (s.pc.toNat / 4 + 1)⟩

/-- Every step that neither faults nor meets the ceiling is counted and appends one snapshot of the new PC and the new
registers; the halting step too, with its own address as the PC (decision D6). -/
def Obligations.CommittedStepIsTraced : Prop :=
  ∀ s t : State, s.phase = .fetching → step s = .next t → (t.phase = .fetching ∨ t.phase = .halted) →
    t.steps = s.steps + 1 ∧ t.trace = s.trace ++ [⟨t.pc, t.regs⟩] ∧ t.faultRecord = s.faultRecord ∧
      (t.phase = .halted → t.pc = s.pc ∧ t.regs = s.regs ∧ t.mem = s.mem)

/-- No step of any kind, from any state, changes program memory. -/
def Obligations.ProgramMemoryImmutable : Prop :=
  ∀ s t : State, step s = .next t → t.prog = s.prog

/-! ### The invariant of a run -/

/-- Every step from a consistent state gives a consistent state. -/
def Obligations.StepKeepsConsistent : Prop :=
  ∀ s t : State, Consistent s → step s = .next t → Consistent t

/-- The state after reset is consistent. -/
def Obligations.ResetIsConsistent : Prop := Consistent State.reset

/-- Every run, of any program input, well formed or not, starts and ends consistent. -/
def Obligations.EveryRunIsConsistent : Prop :=
  ∀ lines : List Text, Consistent (load lines) ∧ ∀ n, Consistent (runSteps n (load lines))

/-- Every run ends: from any `Fetching` state in at most one step more than the ceiling leaves, and from every program
input with at most 10000 executed steps. -/
def Obligations.EveryRunEnds : Prop :=
  (∀ s : State, s.phase = .fetching → s.steps ≤ 10000 → Ended (runSteps (10001 - s.steps) s)) ∧
  ∀ lines : List Text, Ended (runProgram lines) ∧ (runProgram lines).steps ≤ 10000

/-! ### Load, reset and outputs -/

/-- The load check: if every line is 32 characters '0' or '1' the run starts at reset with their words, the leftmost
character of each in bit 31; otherwise it is `Faulted(MalformedInput, p)` for the FIRST failing line p (decisions D9 and
D10), and nothing has executed. Registers, PC and memory at such a fault are the model's choice (log entry 5). -/
def Obligations.LoadChecksEveryLine : Prop :=
  ∀ lines : List Text,
    ((∀ l ∈ lines, LineOk l) → ∃ p : List Word, load lines = { State.reset with prog := p } ∧
      p.length = lines.length ∧
      ∀ (j : Nat) (l : Text) (w : Word), lines[j]? = some l → p[j]? = some w → ∀ k, k < 32 →
        (w.getLsbD (31 - k) = true ↔ l[k]? = some '1')) ∧
    ∀ (j : Nat) (l : Text), lines[j]? = some l → ¬ LineOk l →
      (∀ (q : Nat) (early : Text), q < j → lines[q]? = some early → LineOk early) →
      EntersFaulted State.reset (load lines) .malformedInput (j + 1) none

/-- The values at the start of every run whose input passes the load check (10_state.md section 5; the step count and the
absent record are inferences the spec marks as its own; that State.reset itself holds no program is log entry 4). -/
def Obligations.LoadedStateIsReset : Prop :=
  ∀ (lines : List Text) (p : List Word), loadCheck 1 lines = .words p →
    let s := load lines
    readReg s 2 = 0x17C#32 ∧ (∀ r, r ≠ 2 → readReg s r = 0#32) ∧ s.pc = 0#32 ∧
      (∀ a, IsSlot a → memRead s.mem a = some 0#32) ∧ s.prog = p ∧ s.phase = .fetching ∧ s.steps = 0 ∧
      s.trace = [] ∧ s.faultRecord = none

/-- Which products each terminal phase emits: trace and dump on `Halted` and `CeilingHalted` (decision D8), neither on
`Faulted`; none before the run has ended. -/
def Obligations.ProductsByTerminalPhase : Prop :=
  ∀ s : State,
    (s.phase = .halted → productsOf s = some ⟨some s.trace, some (dumpPairs s), .halted⟩) ∧
    (s.phase = .ceilingHalted → productsOf s = some ⟨some s.trace, some (dumpPairs s), .ceilingHalted⟩) ∧
    (∀ k p x, s.phase = .faulted → s.faultRecord = some ⟨k, p, x⟩ → productsOf s = some ⟨none, none, .faulted k p⟩) ∧
    (¬ Ended s → productsOf s = none)

/-- The dump is the 32 data slots in ascending order with the words they hold; the stack is not in it (decision D21). -/
def Obligations.DumpShowsDataRegion : Prop :=
  ∀ s : State, (dumpPairs s).length = 32 ∧
    ∀ k, k < 32 → ∃ a v, (dumpPairs s)[k]? = some (a, v) ∧ a.toNat = 0x10000 + 4 * k ∧ memRead s.mem a = some v

/-- A trace line: 33 fields in their fixed order, x0 zero, each `0b` and 32 digits with bit 31 first, standing every 35
characters with one space between, then the newline: 1154 characters and the newline (no space after the last field is
decision D18, log entry 15). -/
def Obligations.SnapshotLineFormat : Prop :=
  (∀ sn : Snapshot, (snapshotFields sn).length = 33 ∧ (snapshotFields sn)[0]? = some sn.pc ∧
    (snapshotFields sn)[1]? = some 0#32 ∧
    (∀ i, i < 32 → (snapshotFields sn)[i + 1]? = some (regGet sn.regs (BitVec.ofNat 5 i))) ∧
    (snapshotLine sn).length = 1155 ∧ (snapshotLine sn)[1154]? = some '\n' ∧
    (∀ i w, (snapshotFields sn)[i]? = some w → ((snapshotLine sn).drop (35 * i)).take 34 = wordText w) ∧
    ∀ i, i < 32 → (snapshotLine sn)[35 * i + 34]? = some ' ') ∧
  ∀ w : Word, (wordText w).length = 34 ∧ (wordText w).take 2 = ['0', 'b'] ∧
    ∀ k, k < 32 → (wordText w)[k + 2]? = some (if w.getLsbD (31 - k) then '1' else '0')

/-- The host's placement, which stands for the load of a program (log entry 4): whatever the state, once the word of a
well-formed instruction is placed for the next fetch, the very next step executes that instruction. -/
def Obligations.PlacedInstructionRunsNext : Prop :=
  ∀ (s : State) (i : Instr), WellFormed i →
    let p := s.withFetchWord 32 (encode i).toNat
    step p = exec i p ∧ p.regs = s.regs ∧ p.mem = s.mem ∧ p.trace = s.trace
end

