-- ==== Sys2Proof/Laws/Codec.lean ====
section
/-! SUPPORT. The codec and the arithmetic unit in the library's terms (30_encoding.md R53 to R55, 40_alu_register.md R81). -/

namespace Sys2Proof.Machine

/-- The spec's two's-complement reading is the library's. -/
theorem decodeTwosComplement_eq_toInt {n : Nat} (v : BitVec n) : decodeTwosComplement v = v.toInt := by
  simp [decodeTwosComplement, BitVec.toInt_eq_msb_cond]

theorem signed_eq_toInt (w : Word) : signed w = w.toInt := decodeTwosComplement_eq_toInt w

@[simp] theorem unsigned_eq_toNat (w : Word) : unsigned w = w.toNat := rfl

/-- Narrowing is reduction modulo 2^32. -/
theorem u32_eq_ofInt (z : Int) : u32 z = BitVec.ofInt 32 z := by
  apply BitVec.eq_of_toNat_eq
  simp [u32, BitVec.toNat_ofInt]
  omega

theorem u32_toInt (w : Word) : u32 w.toInt = w := by rw [u32_eq_ofInt, BitVec.ofInt_toInt]

theorem u32_toNat (w : Word) : u32 (w.toNat : Int) = w := by
  rw [u32_eq_ofInt, BitVec.ofInt_natCast, BitVec.ofNat_toNat, BitVec.setWidth_eq]

/-- The adder wraps modulo 2^32. -/
theorem addWords_eq_add (a b : Word) : addWords a b = a + b := by
  rw [addWords, u32_eq_ofInt, BitVec.ofInt_add, signed_eq_toInt, signed_eq_toInt, BitVec.ofInt_toInt, BitVec.ofInt_toInt]

theorem subWords_eq_sub (a b : Word) : subWords a b = a - b := by
  apply BitVec.eq_of_toInt_eq
  rw [subWords, u32_eq_ofInt, signed_eq_toInt, signed_eq_toInt, BitVec.toInt_ofInt, BitVec.toInt_sub]

theorem lessSigned_iff (a b : Word) : lessSigned a b = true ↔ a.toInt < b.toInt := by
  simp [lessSigned, signed_eq_toInt]

theorem samePattern_iff (a b : Word) : samePattern a b = true ↔ a = b := by simp [samePattern]

/-- The next sequential PC is pc + 4 modulo 2^32. -/
theorem nextPc_eq (s : State) : nextPc s = s.pc + 4#32 := by
  apply BitVec.eq_of_toNat_eq
  simp [nextPc, u32_eq_ofInt, BitVec.toNat_ofInt, BitVec.toNat_add]
  omega

/-- A relative target is the PC plus the sign-extended offset modulo 2^32. -/
theorem relativeTarget_eq {n : Nat} (s : State) (off : BitVec n) : relativeTarget s off = s.pc + off.signExtend 32 := by
  rw [relativeTarget, u32_eq_ofInt, BitVec.ofInt_add, signed_eq_toInt, BitVec.ofInt_toInt, unsigned_eq_toNat,
    BitVec.ofInt_natCast, BitVec.ofNat_toNat, BitVec.setWidth_eq, sext]

end Sys2Proof.Machine
end

