-- ==== Sys2Proof/Laws/Decode.lean ====
section
/-! SUPPORT. What the encoder's formats put in each field (30_encoding.md R51, R52, R68), what a decoded word's opcode and
funct3 are (R65), and that every decoded instruction is well formed. -/

namespace Sys2Proof

/-! ### Fields of an encoded word -/

@[simp] theorem opcodeOf_encodeR (f7 : BitVec 7) (rs2 rs1 : RegIdx) (f3 : BitVec 3) (rd : RegIdx) (op : BitVec 7) :
    opcodeOf (encodeR f7 rs2 rs1 f3 rd op) = op := by
  refine BitVec.eq_of_getLsbD_eq fun k hk => ?_
  simp only [opcodeOf, encodeR, BitVec.getLsbD_extractLsb', BitVec.getLsbD_append]
  interval_cases k <;> simp

@[simp] theorem rdOf_encodeR (f7 : BitVec 7) (rs2 rs1 : RegIdx) (f3 : BitVec 3) (rd : RegIdx) (op : BitVec 7) :
    rdOf (encodeR f7 rs2 rs1 f3 rd op) = rd := by
  refine BitVec.eq_of_getLsbD_eq fun k hk => ?_
  simp only [rdOf, encodeR, BitVec.getLsbD_extractLsb', BitVec.getLsbD_append]
  interval_cases k <;> simp

@[simp] theorem funct3Of_encodeR (f7 : BitVec 7) (rs2 rs1 : RegIdx) (f3 : BitVec 3) (rd : RegIdx) (op : BitVec 7) :
    funct3Of (encodeR f7 rs2 rs1 f3 rd op) = f3 := by
  refine BitVec.eq_of_getLsbD_eq fun k hk => ?_
  simp only [funct3Of, encodeR, BitVec.getLsbD_extractLsb', BitVec.getLsbD_append]
  interval_cases k <;> simp

@[simp] theorem rs1Of_encodeR (f7 : BitVec 7) (rs2 rs1 : RegIdx) (f3 : BitVec 3) (rd : RegIdx) (op : BitVec 7) :
    rs1Of (encodeR f7 rs2 rs1 f3 rd op) = rs1 := by
  refine BitVec.eq_of_getLsbD_eq fun k hk => ?_
  simp only [rs1Of, encodeR, BitVec.getLsbD_extractLsb', BitVec.getLsbD_append]
  interval_cases k <;> simp

@[simp] theorem rs2Of_encodeR (f7 : BitVec 7) (rs2 rs1 : RegIdx) (f3 : BitVec 3) (rd : RegIdx) (op : BitVec 7) :
    rs2Of (encodeR f7 rs2 rs1 f3 rd op) = rs2 := by
  refine BitVec.eq_of_getLsbD_eq fun k hk => ?_
  simp only [rs2Of, encodeR, BitVec.getLsbD_extractLsb', BitVec.getLsbD_append]
  interval_cases k <;> simp

@[simp] theorem funct7Of_encodeR (f7 : BitVec 7) (rs2 rs1 : RegIdx) (f3 : BitVec 3) (rd : RegIdx) (op : BitVec 7) :
    funct7Of (encodeR f7 rs2 rs1 f3 rd op) = f7 := by
  refine BitVec.eq_of_getLsbD_eq fun k hk => ?_
  simp only [funct7Of, encodeR, BitVec.getLsbD_extractLsb', BitVec.getLsbD_append]
  interval_cases k <;> simp

@[simp] theorem opcodeOf_encodeI (imm : BitVec 12) (rs1 : RegIdx) (f3 : BitVec 3) (rd : RegIdx) (op : BitVec 7) :
    opcodeOf (encodeI imm rs1 f3 rd op) = op := by
  refine BitVec.eq_of_getLsbD_eq fun k hk => ?_
  simp only [opcodeOf, encodeI, BitVec.getLsbD_extractLsb', BitVec.getLsbD_append]
  interval_cases k <;> simp

@[simp] theorem rdOf_encodeI (imm : BitVec 12) (rs1 : RegIdx) (f3 : BitVec 3) (rd : RegIdx) (op : BitVec 7) :
    rdOf (encodeI imm rs1 f3 rd op) = rd := by
  refine BitVec.eq_of_getLsbD_eq fun k hk => ?_
  simp only [rdOf, encodeI, BitVec.getLsbD_extractLsb', BitVec.getLsbD_append]
  interval_cases k <;> simp

@[simp] theorem funct3Of_encodeI (imm : BitVec 12) (rs1 : RegIdx) (f3 : BitVec 3) (rd : RegIdx) (op : BitVec 7) :
    funct3Of (encodeI imm rs1 f3 rd op) = f3 := by
  refine BitVec.eq_of_getLsbD_eq fun k hk => ?_
  simp only [funct3Of, encodeI, BitVec.getLsbD_extractLsb', BitVec.getLsbD_append]
  interval_cases k <;> simp

@[simp] theorem rs1Of_encodeI (imm : BitVec 12) (rs1 : RegIdx) (f3 : BitVec 3) (rd : RegIdx) (op : BitVec 7) :
    rs1Of (encodeI imm rs1 f3 rd op) = rs1 := by
  refine BitVec.eq_of_getLsbD_eq fun k hk => ?_
  simp only [rs1Of, encodeI, BitVec.getLsbD_extractLsb', BitVec.getLsbD_append]
  interval_cases k <;> simp

@[simp] theorem immIOf_encodeI (imm : BitVec 12) (rs1 : RegIdx) (f3 : BitVec 3) (rd : RegIdx) (op : BitVec 7) :
    immIOf (encodeI imm rs1 f3 rd op) = imm := by
  refine BitVec.eq_of_getLsbD_eq fun k hk => ?_
  simp only [immIOf, encodeI, BitVec.getLsbD_extractLsb', BitVec.getLsbD_append]
  interval_cases k <;> simp

@[simp] theorem opcodeOf_encodeS (imm : BitVec 12) (rs2 rs1 : RegIdx) (f3 : BitVec 3) (op : BitVec 7) :
    opcodeOf (encodeS imm rs2 rs1 f3 op) = op := by
  refine BitVec.eq_of_getLsbD_eq fun k hk => ?_
  simp only [opcodeOf, encodeS, BitVec.getLsbD_extractLsb', BitVec.getLsbD_append]
  interval_cases k <;> simp

@[simp] theorem funct3Of_encodeS (imm : BitVec 12) (rs2 rs1 : RegIdx) (f3 : BitVec 3) (op : BitVec 7) :
    funct3Of (encodeS imm rs2 rs1 f3 op) = f3 := by
  refine BitVec.eq_of_getLsbD_eq fun k hk => ?_
  simp only [funct3Of, encodeS, BitVec.getLsbD_extractLsb', BitVec.getLsbD_append]
  interval_cases k <;> simp

@[simp] theorem rs1Of_encodeS (imm : BitVec 12) (rs2 rs1 : RegIdx) (f3 : BitVec 3) (op : BitVec 7) :
    rs1Of (encodeS imm rs2 rs1 f3 op) = rs1 := by
  refine BitVec.eq_of_getLsbD_eq fun k hk => ?_
  simp only [rs1Of, encodeS, BitVec.getLsbD_extractLsb', BitVec.getLsbD_append]
  interval_cases k <;> simp

@[simp] theorem rs2Of_encodeS (imm : BitVec 12) (rs2 rs1 : RegIdx) (f3 : BitVec 3) (op : BitVec 7) :
    rs2Of (encodeS imm rs2 rs1 f3 op) = rs2 := by
  refine BitVec.eq_of_getLsbD_eq fun k hk => ?_
  simp only [rs2Of, encodeS, BitVec.getLsbD_extractLsb', BitVec.getLsbD_append]
  interval_cases k <;> simp

@[simp] theorem immSOf_encodeS (imm : BitVec 12) (rs2 rs1 : RegIdx) (f3 : BitVec 3) (op : BitVec 7) :
    immSOf (encodeS imm rs2 rs1 f3 op) = imm := by
  refine BitVec.eq_of_getLsbD_eq fun k hk => ?_
  simp only [immSOf, encodeS, BitVec.getLsbD_extractLsb', BitVec.getLsbD_append]
  interval_cases k <;> simp

@[simp] theorem opcodeOf_encodeB (off : BitVec 13) (rs2 rs1 : RegIdx) (f3 : BitVec 3) (op : BitVec 7) :
    opcodeOf (encodeB off rs2 rs1 f3 op) = op := by
  refine BitVec.eq_of_getLsbD_eq fun k hk => ?_
  simp only [opcodeOf, encodeB, BitVec.getLsbD_extractLsb', BitVec.getLsbD_append]
  interval_cases k <;> simp

@[simp] theorem funct3Of_encodeB (off : BitVec 13) (rs2 rs1 : RegIdx) (f3 : BitVec 3) (op : BitVec 7) :
    funct3Of (encodeB off rs2 rs1 f3 op) = f3 := by
  refine BitVec.eq_of_getLsbD_eq fun k hk => ?_
  simp only [funct3Of, encodeB, BitVec.getLsbD_extractLsb', BitVec.getLsbD_append]
  interval_cases k <;> simp

@[simp] theorem rs1Of_encodeB (off : BitVec 13) (rs2 rs1 : RegIdx) (f3 : BitVec 3) (op : BitVec 7) :
    rs1Of (encodeB off rs2 rs1 f3 op) = rs1 := by
  refine BitVec.eq_of_getLsbD_eq fun k hk => ?_
  simp only [rs1Of, encodeB, BitVec.getLsbD_extractLsb', BitVec.getLsbD_append]
  interval_cases k <;> simp

@[simp] theorem rs2Of_encodeB (off : BitVec 13) (rs2 rs1 : RegIdx) (f3 : BitVec 3) (op : BitVec 7) :
    rs2Of (encodeB off rs2 rs1 f3 op) = rs2 := by
  refine BitVec.eq_of_getLsbD_eq fun k hk => ?_
  simp only [rs2Of, encodeB, BitVec.getLsbD_extractLsb', BitVec.getLsbD_append]
  interval_cases k <;> simp

@[simp] theorem immBOf_encodeB (off : BitVec 13) (rs2 rs1 : RegIdx) (f3 : BitVec 3) (op : BitVec 7) (h : off[0] = false) :
    immBOf (encodeB off rs2 rs1 f3 op) = off := by
  refine BitVec.eq_of_getLsbD_eq fun k hk => ?_
  simp only [immBOf, encodeB, BitVec.getLsbD_extractLsb', BitVec.getLsbD_append]
  interval_cases k <;> simp [h]

@[simp] theorem opcodeOf_encodeJ (off : BitVec 21) (rd : RegIdx) (op : BitVec 7) :
    opcodeOf (encodeJ off rd op) = op := by
  refine BitVec.eq_of_getLsbD_eq fun k hk => ?_
  simp only [opcodeOf, encodeJ, BitVec.getLsbD_extractLsb', BitVec.getLsbD_append]
  interval_cases k <;> simp

@[simp] theorem rdOf_encodeJ (off : BitVec 21) (rd : RegIdx) (op : BitVec 7) :
    rdOf (encodeJ off rd op) = rd := by
  refine BitVec.eq_of_getLsbD_eq fun k hk => ?_
  simp only [rdOf, encodeJ, BitVec.getLsbD_extractLsb', BitVec.getLsbD_append]
  interval_cases k <;> simp

@[simp] theorem immJOf_encodeJ (off : BitVec 21) (rd : RegIdx) (op : BitVec 7) (h : off[0] = false) :
    immJOf (encodeJ off rd op) = off := by
  refine BitVec.eq_of_getLsbD_eq fun k hk => ?_
  simp only [immJOf, encodeJ, BitVec.getLsbD_extractLsb', BitVec.getLsbD_append]
  interval_cases k <;> simp [h]

/-! ### The unstored bit of an immediate (R58, R59) -/

@[simp] theorem immBOf_bit_zero (w : Word) : (immBOf w)[0] = false := by
  rw [← BitVec.getLsbD_eq_getElem]
  simp only [immBOf, BitVec.getLsbD_append]
  simp

@[simp] theorem immJOf_bit_zero (w : Word) : (immJOf w)[0] = false := by
  rw [← BitVec.getLsbD_eq_getElem]
  simp only [immJOf, BitVec.getLsbD_append]
  simp

/-! ### The masks of the decode table (R61) -/

/-- The mask of a row keyed on opcode alone keeps the opcode. -/
theorem and_mask_opcode (w : Word) : w &&& 0x0000007F#32 = 0#25 ++ opcodeOf w := by
  refine BitVec.eq_of_getLsbD_eq fun k hk => ?_
  simp only [opcodeOf, BitVec.getLsbD_and, BitVec.getLsbD_extractLsb', BitVec.getLsbD_append]
  interval_cases k <;> simp

/-- The mask of a row keyed on opcode and funct3 keeps the two. -/
theorem and_mask_funct3 (w : Word) : w &&& 0x0000707F#32 = 0#17 ++ funct3Of w ++ 0#5 ++ opcodeOf w := by
  refine BitVec.eq_of_getLsbD_eq fun k hk => ?_
  simp only [opcodeOf, funct3Of, BitVec.getLsbD_and, BitVec.getLsbD_extractLsb', BitVec.getLsbD_append]
  interval_cases k <;> simp

/-- The mask of a row keyed on opcode, funct3 and funct7 keeps the three. -/
theorem and_mask_funct7 (w : Word) :
    w &&& 0xFE00707F#32 = funct7Of w ++ 0#10 ++ funct3Of w ++ 0#5 ++ opcodeOf w := by
  refine BitVec.eq_of_getLsbD_eq fun k hk => ?_
  simp only [opcodeOf, funct3Of, funct7Of, BitVec.getLsbD_and, BitVec.getLsbD_extractLsb', BitVec.getLsbD_append]
  interval_cases k <;> simp

/-- A word masked by opcode alone has the opcode of its pattern. -/
theorem fields_of_mask_opcode {w p : Word} (h : w &&& 0x0000007F#32 = p) : opcodeOf w = opcodeOf p := by
  rw [← h]
  refine BitVec.eq_of_getLsbD_eq fun k hk => ?_
  simp only [opcodeOf, BitVec.getLsbD_and, BitVec.getLsbD_extractLsb']
  interval_cases k <;> simp

/-- A word masked by opcode and funct3 has those of its pattern. -/
theorem fields_of_mask_funct3 {w p : Word} (h : w &&& 0x0000707F#32 = p) :
    opcodeOf w = opcodeOf p ∧ funct3Of w = funct3Of p := by
  rw [← h]
  constructor <;> refine BitVec.eq_of_getLsbD_eq fun k hk => ?_ <;>
    simp only [opcodeOf, funct3Of, BitVec.getLsbD_and, BitVec.getLsbD_extractLsb'] <;> interval_cases k <;> simp

/-- A word masked by opcode, funct3 and funct7 has those of its pattern. -/
theorem fields_of_mask_funct7 {w p : Word} (h : w &&& 0xFE00707F#32 = p) :
    opcodeOf w = opcodeOf p ∧ funct3Of w = funct3Of p ∧ funct7Of w = funct7Of p := by
  rw [← h]
  refine ⟨?_, ?_, ?_⟩ <;> refine BitVec.eq_of_getLsbD_eq fun k hk => ?_ <;>
    simp only [opcodeOf, funct3Of, funct7Of, BitVec.getLsbD_and, BitVec.getLsbD_extractLsb'] <;>
    interval_cases k <;> simp

/-! ### What the decoder answers -/

/-- The whole of the decoder, by cases: the answer with the opcode, funct3 and funct7 that give it (R65). -/
theorem decode_cases (w : Word) (i : Instr) (h : decode w = .instr i) :
    (opcodeOf w = 0b0110011#7 ∧ funct3Of w = 0b000#3 ∧ funct7Of w = 0b0000000#7 ∧ i = .add (rdOf w) (rs1Of w) (rs2Of w)) ∨
    (opcodeOf w = 0b0110011#7 ∧ funct3Of w = 0b000#3 ∧ funct7Of w = 0b0100000#7 ∧ i = .sub (rdOf w) (rs1Of w) (rs2Of w)) ∨
    (opcodeOf w = 0b0110011#7 ∧ funct3Of w = 0b010#3 ∧ i = .slt (rdOf w) (rs1Of w) (rs2Of w)) ∨
    (opcodeOf w = 0b0110011#7 ∧ funct3Of w = 0b101#3 ∧ i = .srl (rdOf w) (rs1Of w) (rs2Of w)) ∨
    (opcodeOf w = 0b0110011#7 ∧ funct3Of w = 0b110#3 ∧ i = .or (rdOf w) (rs1Of w) (rs2Of w)) ∨
    (opcodeOf w = 0b0110011#7 ∧ funct3Of w = 0b111#3 ∧ i = .and (rdOf w) (rs1Of w) (rs2Of w)) ∨
    (opcodeOf w = 0b0010011#7 ∧ funct3Of w = 0b000#3 ∧ i = .addi (rdOf w) (rs1Of w) (immIOf w)) ∨
    (opcodeOf w = 0b0000011#7 ∧ funct3Of w = 0b010#3 ∧ i = .lw (rdOf w) (rs1Of w) (immIOf w)) ∨
    (opcodeOf w = 0b1100111#7 ∧ funct3Of w = 0b000#3 ∧ i = .jalr (rdOf w) (rs1Of w) (immIOf w)) ∨
    (opcodeOf w = 0b0100011#7 ∧ funct3Of w = 0b010#3 ∧ i = .sw (rs1Of w) (rs2Of w) (immSOf w)) ∨
    (opcodeOf w = 0b1100011#7 ∧ funct3Of w = 0b000#3 ∧ i = .beq (rs1Of w) (rs2Of w) (immBOf w)) ∨
    (opcodeOf w = 0b1100011#7 ∧ funct3Of w = 0b001#3 ∧ i = .bne (rs1Of w) (rs2Of w) (immBOf w)) ∨
    (opcodeOf w = 0b1100011#7 ∧ funct3Of w = 0b100#3 ∧ i = .blt (rs1Of w) (rs2Of w) (immBOf w)) ∨
    (opcodeOf w = 0b1101111#7 ∧ i = .jal (rdOf w) (immJOf w)) := by
  unfold decode decodeR decodeB at h
  split_ifs at h <;> simp_all

/-- A decoded instruction is well formed: its unstored immediate bit is 0. -/
theorem decode_wellFormed {w : Word} {i : Instr} (h : decode w = .instr i) : WellFormed i := by
  unfold decode decodeR decodeB at h
  split_ifs at h <;> cases h <;> simp [WellFormed, Instr.wellFormed]

end Sys2Proof
end

