-- ==== Sys2Proof/Laws/State.lean ====
section
/-! SUPPORT. One lemma per field per update: the register write, the entry into `Faulted` and the counting of a step. -/

namespace Sys2Proof.Machine

/-! ### `writeReg` -/
@[simp] theorem writeReg_regs (s : State) (i : RegIdx) (v : Word) : (writeReg s i v).regs = regSet s.regs i v := rfl
@[simp] theorem writeReg_pc (s : State) (i : RegIdx) (v : Word) : (writeReg s i v).pc = s.pc := rfl
@[simp] theorem writeReg_mem (s : State) (i : RegIdx) (v : Word) : (writeReg s i v).mem = s.mem := rfl
@[simp] theorem writeReg_prog (s : State) (i : RegIdx) (v : Word) : (writeReg s i v).prog = s.prog := rfl
@[simp] theorem writeReg_phase (s : State) (i : RegIdx) (v : Word) : (writeReg s i v).phase = s.phase := rfl
@[simp] theorem writeReg_steps (s : State) (i : RegIdx) (v : Word) : (writeReg s i v).steps = s.steps := rfl
@[simp] theorem writeReg_trace (s : State) (i : RegIdx) (v : Word) : (writeReg s i v).trace = s.trace := rfl
@[simp] theorem writeReg_faultRecord (s : State) (i : RegIdx) (v : Word) :
    (writeReg s i v).faultRecord = s.faultRecord := rfl

/-! ### `countStep` -/
@[simp] theorem countStep_regs (s : State) : (countStep s).regs = s.regs := rfl
@[simp] theorem countStep_pc (s : State) : (countStep s).pc = s.pc := rfl
@[simp] theorem countStep_mem (s : State) : (countStep s).mem = s.mem := rfl
@[simp] theorem countStep_prog (s : State) : (countStep s).prog = s.prog := rfl
@[simp] theorem countStep_phase (s : State) : (countStep s).phase = s.phase := rfl
@[simp] theorem countStep_steps (s : State) : (countStep s).steps = s.steps + 1 := rfl
@[simp] theorem countStep_trace (s : State) : (countStep s).trace = s.trace ++ [snapshot s] := rfl
@[simp] theorem countStep_faultRecord (s : State) : (countStep s).faultRecord = s.faultRecord := rfl

/-! ### `enterFaulted` -/
@[simp] theorem enterFaulted_regs (s : State) (k : FaultKind) (p : Nat) (x : Option Word) :
    (enterFaulted s k p x).regs = s.regs := rfl
@[simp] theorem enterFaulted_pc (s : State) (k : FaultKind) (p : Nat) (x : Option Word) :
    (enterFaulted s k p x).pc = s.pc := rfl
@[simp] theorem enterFaulted_mem (s : State) (k : FaultKind) (p : Nat) (x : Option Word) :
    (enterFaulted s k p x).mem = s.mem := rfl
@[simp] theorem enterFaulted_prog (s : State) (k : FaultKind) (p : Nat) (x : Option Word) :
    (enterFaulted s k p x).prog = s.prog := rfl
@[simp] theorem enterFaulted_phase (s : State) (k : FaultKind) (p : Nat) (x : Option Word) :
    (enterFaulted s k p x).phase = .faulted := rfl
@[simp] theorem enterFaulted_steps (s : State) (k : FaultKind) (p : Nat) (x : Option Word) :
    (enterFaulted s k p x).steps = s.steps := rfl
@[simp] theorem enterFaulted_trace (s : State) (k : FaultKind) (p : Nat) (x : Option Word) :
    (enterFaulted s k p x).trace = [] := rfl
@[simp] theorem enterFaulted_faultRecord (s : State) (k : FaultKind) (p : Nat) (x : Option Word) :
    (enterFaulted s k p x).faultRecord = some ⟨k, p, x⟩ := rfl

/-! ### `snapshot` -/
@[simp] theorem snapshot_pc (s : State) : (snapshot s).pc = s.pc := rfl
@[simp] theorem snapshot_regs (s : State) : (snapshot s).regs = s.regs := rfl

end Sys2Proof.Machine
end

