-- ==== Sys2Proof/Laws/Memory.lean ====
section
/-! SUPPORT. What reading and writing the data space do, and that every memory operation keeps the canonical form
(20_memory.md R33, R36, R37). -/

namespace Sys2Proof.Machine

/-! ### Resolution -/

theorem isStackSlot_iff (a : Nat) : isStackSlot a = true ↔ a % 4 = 0 ∧ 0x100 ≤ a ∧ a ≤ 0x17C := by
  simp only [isStackSlot, Bool.and_eq_true, decide_eq_true_eq, and_assoc]
  rfl

theorem isDataSlot_iff (a : Nat) : isDataSlot a = true ↔ a % 4 = 0 ∧ 0x10000 ≤ a ∧ a ≤ 0x1007C := by
  simp only [isDataSlot, Bool.and_eq_true, decide_eq_true_eq, and_assoc]
  rfl

theorem resolve_eq_some {a : Word} {sl : Slot} (h : resolve a = some sl) :
    slotKey sl = a.toNat ∧ (isStackSlot a.toNat || isDataSlot a.toNat) = true := by
  unfold resolve at h
  split at h
  · cases h; simp_all [slotKey]
  · split at h
    · cases h; simp_all [slotKey]
    · cases h

theorem resolve_isSome (a : Word) : (resolve a).isSome = (isStackSlot a.toNat || isDataSlot a.toNat) := by
  unfold resolve
  split
  · simp_all
  · split <;> simp_all

/-- A successful read is of the cell at the address. -/
theorem memRead_eq (m : Memory) (a : Word) :
    memRead m a = if (resolve a).isSome then some (cellGet m a.toNat) else none := by
  unfold memRead
  cases h : resolve a with
  | none => simp
  | some sl => simp [(resolve_eq_some h).1]

/-- A successful write is of the cell at the address. -/
theorem memWrite_eq (m : Memory) (a v : Word) :
    memWrite m a v = if (resolve a).isSome then some (cellSet m a.toNat v) else none := by
  unfold memWrite
  cases h : resolve a with
  | none => simp
  | some sl => simp [(resolve_eq_some h).1]

/-! ### Cells of a memory in rising order -/

/-- Below its first address a memory lists nothing. -/
theorem cellGet_of_lt_all {m : Memory} {a : Nat} (h : ∀ c ∈ m, a < c.1) : cellGet m a = unlistedWord := by
  cases m with
  | nil => rfl
  | cons c m => simp [cellGet, h c (by simp)]

/-- Reading a cell after a write: the written word at the written address, the old word at any other. -/
theorem cellGet_cellSet {m : Memory} (hm : m.Pairwise (fun c d => c.1 < d.1)) (a b : Nat) (v : Word) :
    cellGet (cellSet m a v) b = if b = a then v else cellGet m b := by
  induction m with
  | nil => by_cases hv : v = unlistedWord <;> by_cases hb : b = a <;> simp_all [cellSet, cellGet]
  | cons c m ih =>
    obtain ⟨k, w⟩ := c
    obtain ⟨hk, hm⟩ := List.pairwise_cons.mp hm
    have hbelow : ∀ x, x ≤ k → cellGet m x = unlistedWord :=
      fun x hx => cellGet_of_lt_all fun c hc => lt_of_le_of_lt hx (hk c hc)
    by_cases h1 : a < k
    · have hak : a ≠ k := by omega
      by_cases hv : v = unlistedWord
      · by_cases hb : b = a <;> simp_all [cellSet, cellGet]
      · by_cases hb : b = a
        · simp [cellSet, cellGet, h1, hv, hb]
        · by_cases hlt : b < a
          · have : b < k := by omega
            simp [cellSet, cellGet, h1, hv, hb, hlt, this]
          · simp [cellSet, cellGet, h1, hv, hb, hlt]
    · by_cases h2 : a = k
      · subst h2
        by_cases hv : v = unlistedWord
        · by_cases hb : b = a
          · simp [cellSet, hv, hb, hbelow a le_rfl]
          · by_cases hlt : b < a
            · simp [cellSet, cellGet, hv, hb, hlt, hbelow b (by omega)]
            · simp [cellSet, cellGet, hv, hb, hlt]
        · by_cases hb : b = a <;> simp [cellSet, cellGet, hv, hb]
      · by_cases hb : b = a
        · subst hb
          simp [cellSet, cellGet, h1, h2, ih hm]
        · simp [cellSet, cellGet, h1, h2, ih hm, hb]

/-- What a written memory lists: the written pair, or a pair it listed before. -/
theorem mem_cellSet {m : Memory} {a : Nat} {v : Word} {c : Nat × Word} (h : c ∈ cellSet m a v) :
    (c = (a, v) ∧ v ≠ unlistedWord) ∨ c ∈ m := by
  induction m with
  | nil => by_cases hv : v = unlistedWord <;> simp_all [cellSet]
  | cons d m ih =>
    obtain ⟨k, w⟩ := d
    by_cases hv : v = unlistedWord <;> by_cases h1 : a < k <;> by_cases h2 : a = k <;>
      simp_all [cellSet] <;> tauto

/-- A write keeps the addresses strictly rising. -/
theorem cellSet_rising {m : Memory} (hm : m.Pairwise (fun c d => c.1 < d.1)) (a : Nat) (v : Word) :
    (cellSet m a v).Pairwise (fun c d => c.1 < d.1) := by
  induction m with
  | nil => by_cases hv : v = unlistedWord <;> simp [cellSet, hv]
  | cons d m ih =>
    obtain ⟨k, w⟩ := d
    obtain ⟨hk, hm'⟩ := List.pairwise_cons.mp hm
    by_cases h1 : a < k
    · by_cases hv : v = unlistedWord
      · simpa [cellSet, h1, hv] using hm
      · simp only [cellSet, h1, hv, if_true, if_false]
        refine List.pairwise_cons.mpr ⟨fun c hc => ?_, hm⟩
        rcases List.mem_cons.mp hc with rfl | hc
        · exact h1
        · exact lt_trans h1 (hk c hc)
    · by_cases h2 : a = k
      · by_cases hv : v = unlistedWord
        · simpa [cellSet, h2, hv] using hm'
        · subst h2
          simpa [cellSet, hv] using ⟨fun x y hc => hk (x, y) hc, hm'⟩
      · simp only [cellSet, h1, h2, if_false]
        refine List.pairwise_cons.mpr ⟨fun c hc => ?_, ih hm'⟩
        rcases mem_cellSet hc with ⟨rfl, -⟩ | hc
        · show k < a
          omega
        · exact hk c hc

/-- A write at a slot address keeps the canonical form. -/
theorem cellSet_wf {m : Memory} (hm : Memory.wf m) {a : Nat} (ha : (isStackSlot a || isDataSlot a) = true) (v : Word) :
    Memory.wf (cellSet m a v) := by
  refine ⟨cellSet_rising hm.1 a v, fun c hc => ?_⟩
  rcases mem_cellSet hc with ⟨rfl, hv⟩ | hc
  · exact ⟨ha, hv⟩
  · exact hm.2 c hc

/-! ### The data space -/

/-- Every store keeps the canonical form. -/
theorem memWrite_wf {m m' : Memory} (hm : Memory.wf m) {a v : Word} (h : memWrite m a v = some m') : Memory.wf m' := by
  rw [memWrite_eq] at h
  split at h
  · rename_i hs
    cases h
    exact cellSet_wf hm (by rwa [← resolve_isSome]) v
  · cases h

/-- Reading any address after a store: the stored word at the stored address, the old answer elsewhere. -/
theorem memRead_memWrite {m m' : Memory} (hm : Memory.wf m) {a v : Word} (h : memWrite m a v = some m') (b : Word) :
    memRead m' b = if b = a then some v else memRead m b := by
  rw [memWrite_eq] at h
  split at h
  · rename_i hs
    cases h
    rw [memRead_eq, memRead_eq, cellGet_cellSet hm.1]
    by_cases hb : b = a
    · simp [hb, hs]
    · have : b.toNat ≠ a.toNat := fun e => hb (BitVec.eq_of_toNat_eq e)
      simp [hb, this]
  · cases h

/-- A store succeeds exactly where a load does. -/
theorem memWrite_isSome (m : Memory) (a v : Word) : (memWrite m a v).isSome = (memRead m a).isSome := by
  rw [memWrite_eq, memRead_eq]
  split <;> rfl

/-- The memory after reset is in canonical form. -/
theorem reset_mem_wf : Memory.wf State.reset.mem := ⟨List.Pairwise.nil, fun _ h => (List.not_mem_nil h).elim⟩

end Sys2Proof.Machine
end

