-- ==== Sys2Proof/Laws/Output.lean ====
section
/-! SUPPORT. Where the characters of a trace line stand (45_driver.md R150). -/

namespace Sys2Proof.Machine

theorem bitChars_length (n v : Nat) : (bitChars n v).length = n := by
  induction n with
  | zero => rfl
  | succ n ih => rw [bitChars, List.length_cons, ih]

@[simp] theorem wordText_length (w : Word) : (wordText w).length = 34 := by
  rw [wordText, List.length_cons, List.length_cons, bitChars_length]

@[simp] theorem snapshotFields_length (t : Snapshot) : (snapshotFields t).length = 33 := by
  rw [snapshotFields, List.length_cons, List.length_map, List.length_range]

/-- Words shown with single spaces between them take 35 characters each, less one. -/
theorem joinSpaced_length (w : Word) (ws : List Word) :
    (joinSpaced ((w :: ws).map wordText)).length = 35 * ws.length + 34 := by
  induction ws generalizing w with
  | nil => exact wordText_length w
  | cons u ws ih =>
    simp only [List.map_cons, joinSpaced, List.length_append, List.length_cons, wordText_length] at ih ⊢
    rw [ih]
    omega

/-- The i-th word stands at character 35·i of the line, and one space after it where another word follows. -/
theorem joinSpaced_drop (ws : List Word) (i : Nat) (w : Word) (h : ws[i]? = some w) (tail : Text) :
    ∃ rest, (joinSpaced (ws.map wordText) ++ tail).drop (35 * i) = wordText w ++ rest ∧
      (i + 1 < ws.length → rest[0]? = some ' ') := by
  induction ws generalizing i with
  | nil => cases h
  | cons v ws ih =>
    cases ws with
    | nil =>
      cases i with
      | zero => cases h; exact ⟨tail, rfl, fun h => absurd h (by simp)⟩
      | succ i => cases h
    | cons u ws =>
      cases i with
      | zero => cases h; exact ⟨_, List.append_assoc .., fun _ => rfl⟩
      | succ i =>
        obtain ⟨rest, hr, hs⟩ := ih i h
        refine ⟨rest, ?_, fun hi => hs (by simpa using hi)⟩
        rw [← hr]
        simp only [List.map_cons, joinSpaced, List.append_assoc, List.cons_append]
        rw [List.drop_append, wordText_length, List.drop_eq_nil_of_le (by rw [wordText_length]; omega), List.nil_append,
          show 35 * (i + 1) - 34 = 35 * i + 1 by omega, List.drop_succ_cons]

end Sys2Proof.Machine
end

