-- ==== Sys2Proof/Laws/PerInstr.lean ====
section
/-! SUPPORT. Statements about every instruction as syntax, one lemma per constructor. -/

namespace Sys2Proof.Laws.EncodeSelectsRow

/-- The instruction's word selects the decode table's row of its mnemonic and type (30_encoding.md R61, R68). -/
def Statement (i : Instr) : Prop :=
  ∃ r ∈ decodeTable, r.mnemonic = i.mnemonic ∧ r.format = i.format ∧ r.selects (encode i) = true

theorem add (rd : RegIdx) (rs1 : RegIdx) (rs2 : RegIdx) : Statement (.add rd rs1 rs2) := by
  refine ⟨_, List.getElem_mem (l := decodeTable) (n := 0) (by decide), rfl, rfl, ?_⟩
  refine decide_eq_true (BitVec.eq_of_getLsbD_eq fun k hk => ?_)
  simp only [decodeTable, encode, encodeR, BitVec.getLsbD_and, BitVec.getLsbD_append]
  interval_cases k <;> simp

theorem sub (rd : RegIdx) (rs1 : RegIdx) (rs2 : RegIdx) : Statement (.sub rd rs1 rs2) := by
  refine ⟨_, List.getElem_mem (l := decodeTable) (n := 1) (by decide), rfl, rfl, ?_⟩
  refine decide_eq_true (BitVec.eq_of_getLsbD_eq fun k hk => ?_)
  simp only [decodeTable, encode, encodeR, BitVec.getLsbD_and, BitVec.getLsbD_append]
  interval_cases k <;> simp

theorem slt (rd : RegIdx) (rs1 : RegIdx) (rs2 : RegIdx) : Statement (.slt rd rs1 rs2) := by
  refine ⟨_, List.getElem_mem (l := decodeTable) (n := 2) (by decide), rfl, rfl, ?_⟩
  refine decide_eq_true (BitVec.eq_of_getLsbD_eq fun k hk => ?_)
  simp only [decodeTable, encode, encodeR, BitVec.getLsbD_and, BitVec.getLsbD_append]
  interval_cases k <;> simp

theorem srl (rd : RegIdx) (rs1 : RegIdx) (rs2 : RegIdx) : Statement (.srl rd rs1 rs2) := by
  refine ⟨_, List.getElem_mem (l := decodeTable) (n := 3) (by decide), rfl, rfl, ?_⟩
  refine decide_eq_true (BitVec.eq_of_getLsbD_eq fun k hk => ?_)
  simp only [decodeTable, encode, encodeR, BitVec.getLsbD_and, BitVec.getLsbD_append]
  interval_cases k <;> simp

theorem or (rd : RegIdx) (rs1 : RegIdx) (rs2 : RegIdx) : Statement (.or rd rs1 rs2) := by
  refine ⟨_, List.getElem_mem (l := decodeTable) (n := 4) (by decide), rfl, rfl, ?_⟩
  refine decide_eq_true (BitVec.eq_of_getLsbD_eq fun k hk => ?_)
  simp only [decodeTable, encode, encodeR, BitVec.getLsbD_and, BitVec.getLsbD_append]
  interval_cases k <;> simp

theorem and (rd : RegIdx) (rs1 : RegIdx) (rs2 : RegIdx) : Statement (.and rd rs1 rs2) := by
  refine ⟨_, List.getElem_mem (l := decodeTable) (n := 5) (by decide), rfl, rfl, ?_⟩
  refine decide_eq_true (BitVec.eq_of_getLsbD_eq fun k hk => ?_)
  simp only [decodeTable, encode, encodeR, BitVec.getLsbD_and, BitVec.getLsbD_append]
  interval_cases k <;> simp

theorem addi (rd : RegIdx) (rs1 : RegIdx) (imm : BitVec 12) : Statement (.addi rd rs1 imm) := by
  refine ⟨_, List.getElem_mem (l := decodeTable) (n := 6) (by decide), rfl, rfl, ?_⟩
  refine decide_eq_true (BitVec.eq_of_getLsbD_eq fun k hk => ?_)
  simp only [decodeTable, encode, encodeI, BitVec.getLsbD_and, BitVec.getLsbD_append]
  interval_cases k <;> simp

theorem lw (rd : RegIdx) (rs1 : RegIdx) (imm : BitVec 12) : Statement (.lw rd rs1 imm) := by
  refine ⟨_, List.getElem_mem (l := decodeTable) (n := 7) (by decide), rfl, rfl, ?_⟩
  refine decide_eq_true (BitVec.eq_of_getLsbD_eq fun k hk => ?_)
  simp only [decodeTable, encode, encodeI, BitVec.getLsbD_and, BitVec.getLsbD_append]
  interval_cases k <;> simp

theorem jalr (rd : RegIdx) (rs1 : RegIdx) (imm : BitVec 12) : Statement (.jalr rd rs1 imm) := by
  refine ⟨_, List.getElem_mem (l := decodeTable) (n := 8) (by decide), rfl, rfl, ?_⟩
  refine decide_eq_true (BitVec.eq_of_getLsbD_eq fun k hk => ?_)
  simp only [decodeTable, encode, encodeI, BitVec.getLsbD_and, BitVec.getLsbD_append]
  interval_cases k <;> simp

theorem sw (rs1 : RegIdx) (rs2 : RegIdx) (imm : BitVec 12) : Statement (.sw rs1 rs2 imm) := by
  refine ⟨_, List.getElem_mem (l := decodeTable) (n := 9) (by decide), rfl, rfl, ?_⟩
  refine decide_eq_true (BitVec.eq_of_getLsbD_eq fun k hk => ?_)
  simp only [decodeTable, encode, encodeS, BitVec.getLsbD_and, BitVec.getLsbD_append]
  interval_cases k <;> simp

theorem beq (rs1 : RegIdx) (rs2 : RegIdx) (off : BitVec 13) : Statement (.beq rs1 rs2 off) := by
  refine ⟨_, List.getElem_mem (l := decodeTable) (n := 10) (by decide), rfl, rfl, ?_⟩
  refine decide_eq_true (BitVec.eq_of_getLsbD_eq fun k hk => ?_)
  simp only [decodeTable, encode, encodeB, BitVec.getLsbD_and, BitVec.getLsbD_append]
  interval_cases k <;> simp

theorem bne (rs1 : RegIdx) (rs2 : RegIdx) (off : BitVec 13) : Statement (.bne rs1 rs2 off) := by
  refine ⟨_, List.getElem_mem (l := decodeTable) (n := 11) (by decide), rfl, rfl, ?_⟩
  refine decide_eq_true (BitVec.eq_of_getLsbD_eq fun k hk => ?_)
  simp only [decodeTable, encode, encodeB, BitVec.getLsbD_and, BitVec.getLsbD_append]
  interval_cases k <;> simp

theorem blt (rs1 : RegIdx) (rs2 : RegIdx) (off : BitVec 13) : Statement (.blt rs1 rs2 off) := by
  refine ⟨_, List.getElem_mem (l := decodeTable) (n := 12) (by decide), rfl, rfl, ?_⟩
  refine decide_eq_true (BitVec.eq_of_getLsbD_eq fun k hk => ?_)
  simp only [decodeTable, encode, encodeB, BitVec.getLsbD_and, BitVec.getLsbD_append]
  interval_cases k <;> simp

theorem jal (rd : RegIdx) (off : BitVec 21) : Statement (.jal rd off) := by
  refine ⟨_, List.getElem_mem (l := decodeTable) (n := 13) (by decide), rfl, rfl, ?_⟩
  refine decide_eq_true (BitVec.eq_of_getLsbD_eq fun k hk => ?_)
  simp only [decodeTable, encode, encodeJ, BitVec.getLsbD_and, BitVec.getLsbD_append]
  interval_cases k <;> simp

end Sys2Proof.Laws.EncodeSelectsRow
end

