-- ==== Sys2Proof/Laws/Registers.lean ====
section
/-! SUPPORT. What the register read and the write port do (10_state.md R11, R12). -/

namespace Sys2Proof.Machine

@[simp] theorem regGet_zero (f : RegFile) : regGet f 0#5 = 0#32 := by simp [regGet]

theorem regSet_zero (f : RegFile) (v : Word) : regSet f 0#5 v = f := by simp [regSet]

/-- Two indices other than 0 with the same cell are the same index. -/
theorem cell_inj {i r : RegIdx} (hi : i ≠ 0#5) (hr : r ≠ 0#5) (h : r.toNat - 1 = i.toNat - 1) : r = i := by
  have hi' : i.toNat ≠ 0 := fun e => hi (BitVec.eq_of_toNat_eq (by simpa using e))
  have hr' : r.toNat ≠ 0 := fun e => hr (BitVec.eq_of_toNat_eq (by simpa using e))
  exact BitVec.eq_of_toNat_eq (by omega)

/-- Reading after a write: the written value at the written index, unless that is x0. -/
theorem regGet_regSet (f : RegFile) (r i : RegIdx) (v : Word) :
    regGet (regSet f r v) i = if i = r ∧ i ≠ 0#5 then v else regGet f i := by
  by_cases hi : i = 0#5
  · simp [hi]
  by_cases hr : r = 0#5
  · subst hr
    simp [regSet_zero, hi]
  by_cases h : i = r
  · subst h
    simp [regGet, regSet, hi]
  · have hne : r.toNat - 1 ≠ i.toNat - 1 := fun e => h (cell_inj hr hi e.symm)
    simp [regGet, regSet, hi, hr, h, Vector.getElem_set_ne _ _ hne]

theorem readReg_writeReg (s : State) (r i : RegIdx) (v : Word) :
    readReg (writeReg s r v) i = if i = r ∧ i ≠ 0#5 then v else readReg s i := regGet_regSet s.regs r i v

@[simp] theorem readReg_zero (s : State) : readReg s 0#5 = 0#32 := regGet_zero s.regs

/-- What a state's registers read as depends on its register file alone. -/
theorem readReg_congr {s t : State} (h : t.regs = s.regs) (i : RegIdx) : readReg t i = readReg s i := by
  simp [readReg, h]

end Sys2Proof.Machine
end

