-- ==== Sys2Proof/Laws/Step.lean ====
section
/-! SUPPORT. What the commit of a step result, the execution of an instruction, and one row of the driver's transition table
can do, said once (45_driver.md R139 to R147). -/

namespace Sys2Proof.Machine

/-! ### The commit of each step result -/

/-- A committed register write and jump: the fields of the next state. -/
theorem commit_writeReg (s : State) (rd : RegIdx) (v t : Word) :
    commit s (writeRegResult rd v t) =
      countStep { s with regs := regSet s.regs rd v, pc := t, phase := .fetching } := rfl

/-- A committed jump: only the PC, the count and the trace change. -/
theorem commit_jump (s : State) (t : Word) :
    commit s (jumpResult t) = countStep { s with pc := t, phase := .fetching } := rfl

/-- A committed load is a committed register write where the address names a slot, and the fault where it does not. -/
theorem commit_load (s : State) (rd : RegIdx) (a : Word) :
    commit s (loadResult s rd a) =
      match memRead s.mem a with
      | some v => countStep { s with regs := regSet s.regs rd v, pc := nextPc s, phase := .fetching }
      | none => enterFaulted s .outOfRangeAccess (position s.pc) (some a) := by
  unfold loadResult
  cases memRead s.mem a <;> rfl

/-- A committed store writes memory where the address names a slot, and is the fault where it does not. -/
theorem commit_store (s : State) (a v : Word) :
    commit s (storeResult s a v) =
      match memWrite s.mem a v with
      | some m => countStep { s with mem := m, pc := nextPc s, phase := .fetching }
      | none => enterFaulted s .outOfRangeAccess (position s.pc) (some a) := by
  unfold storeResult
  cases memWrite s.mem a v <;> rfl

/-- A committed branch goes to the target or to the next instruction. -/
theorem commit_branch (s : State) (taken : Bool) (off : BitVec 13) :
    commit s (branchResult s taken off) =
      countStep { s with pc := if taken then relativeTarget s off else nextPc s, phase := .fetching } := rfl

/-! ### The execution of an instruction -/

/-- Everything an instruction can do: it always gives a next state, which is one of a committed step with at most one
register write and at most one store, the halting commit of a `beq` with equal register fields and offset 0, or the entry
into `Faulted` of an lw or sw whose address names no slot. -/
theorem exec_cases (i : Instr) (s : State) : ∃ t, exec i s = .next t ∧
    ((∃ f m p, t = countStep { s with regs := f, mem := m, pc := p, phase := .fetching } ∧
        (f = s.regs ∨ ∃ rd v, f = regSet s.regs rd v) ∧
        (m = s.mem ∨ ∃ rs1 rs2 imm, i = .sw rs1 rs2 imm ∧
          memWrite s.mem (effectiveAddress s rs1 imm) (readReg s rs2) = some m)) ∨
      (∃ r, i = .beq r r 0#13 ∧ t = countStep { s with phase := .halted }) ∨
      (∃ rs1 imm, ((∃ rd, i = .lw rd rs1 imm) ∨ ∃ rs2, i = .sw rs1 rs2 imm) ∧
        memRead s.mem (effectiveAddress s rs1 imm) = none ∧
        t = enterFaulted s .outOfRangeAccess (position s.pc) (some (effectiveAddress s rs1 imm)))) := by
  cases i with
  | add rd rs1 rs2 => exact ⟨_, rfl, .inl ⟨_, s.mem, _, rfl, .inr ⟨rd, _, rfl⟩, .inl rfl⟩⟩
  | sub rd rs1 rs2 => exact ⟨_, rfl, .inl ⟨_, s.mem, _, rfl, .inr ⟨rd, _, rfl⟩, .inl rfl⟩⟩
  | slt rd rs1 rs2 => exact ⟨_, rfl, .inl ⟨_, s.mem, _, rfl, .inr ⟨rd, _, rfl⟩, .inl rfl⟩⟩
  | srl rd rs1 rs2 => exact ⟨_, rfl, .inl ⟨_, s.mem, _, rfl, .inr ⟨rd, _, rfl⟩, .inl rfl⟩⟩
  | or rd rs1 rs2 => exact ⟨_, rfl, .inl ⟨_, s.mem, _, rfl, .inr ⟨rd, _, rfl⟩, .inl rfl⟩⟩
  | and rd rs1 rs2 => exact ⟨_, rfl, .inl ⟨_, s.mem, _, rfl, .inr ⟨rd, _, rfl⟩, .inl rfl⟩⟩
  | addi rd rs1 imm => exact ⟨_, rfl, .inl ⟨_, s.mem, _, rfl, .inr ⟨rd, _, rfl⟩, .inl rfl⟩⟩
  | jalr rd rs1 imm => exact ⟨_, rfl, .inl ⟨_, s.mem, _, rfl, .inr ⟨rd, _, rfl⟩, .inl rfl⟩⟩
  | jal rd off => exact ⟨_, rfl, .inl ⟨_, s.mem, _, rfl, .inr ⟨rd, _, rfl⟩, .inl rfl⟩⟩
  | bne rs1 rs2 off => exact ⟨_, rfl, .inl ⟨s.regs, s.mem, _, rfl, .inl rfl, .inl rfl⟩⟩
  | blt rs1 rs2 off => exact ⟨_, rfl, .inl ⟨s.regs, s.mem, _, rfl, .inl rfl, .inl rfl⟩⟩
  | beq rs1 rs2 off =>
    refine ⟨_, rfl, ?_⟩
    split
    · rename_i h
      obtain ⟨rfl, rfl⟩ := h
      exact .inr (.inl ⟨rs1, rfl, rfl⟩)
    · exact .inl ⟨s.regs, s.mem, _, rfl, .inl rfl, .inl rfl⟩
  | lw rd rs1 imm =>
    refine ⟨_, rfl, ?_⟩
    rw [commit_load]
    split
    · exact .inl ⟨_, s.mem, _, rfl, .inr ⟨rd, _, rfl⟩, .inl rfl⟩
    · exact .inr (.inr ⟨rs1, imm, .inl ⟨rd, rfl⟩, by assumption, rfl⟩)
  | sw rs1 rs2 imm =>
    refine ⟨_, rfl, ?_⟩
    rw [commit_store]
    split
    · exact .inl ⟨s.regs, _, _, rfl, .inl rfl, .inr ⟨rs1, rs2, imm, rfl, by assumption⟩⟩
    · rename_i h
      refine .inr (.inr ⟨rs1, imm, .inr ⟨rs2, rfl⟩, ?_, rfl⟩)
      have := memWrite_isSome s.mem (effectiveAddress s rs1 imm) (readReg s rs2)
      simpa [h] using this.symm

/-- An instruction's next state does not depend on the phase it is executed in: every commit sets the phase. -/
theorem exec_phase (i : Instr) (s : State) (p : Phase) : exec i { s with phase := p } = exec i s := by
  cases i with
  | lw rd rs1 imm =>
    show Host.Outcome.next (commit _ (loadResult _ _ _)) = Host.Outcome.next (commit _ (loadResult _ _ _))
    rw [commit_load, commit_load]
    show Host.Outcome.next (match memRead s.mem (effectiveAddress s rs1 imm) with | some v => _ | none => _) = _
    split <;> rfl
  | sw rs1 rs2 imm =>
    show Host.Outcome.next (commit _ (storeResult _ _ _)) = Host.Outcome.next (commit _ (storeResult _ _ _))
    rw [commit_store, commit_store]
    show Host.Outcome.next
      (match memWrite s.mem (effectiveAddress s rs1 imm) (readReg s rs2) with | some m => _ | none => _) = _
    split <;> rfl
  | beq rs1 rs2 off =>
    show Host.Outcome.next (commit _ (if _ then _ else _)) = Host.Outcome.next (commit _ (if _ then _ else _))
    split <;> rfl
  | _ => rfl

/-! ### Rows of the transition table -/

/-- Fetching at the ceiling. -/
theorem fetchStage_ceiling {s : State} (h : s.steps = Config.stepCeiling) :
    fetchStage s = { s with phase := .ceilingHalted } := by simp [fetchStage, h]

/-- Fetching where no program word lives. -/
theorem fetchStage_outOfRange {s : State} (h : s.steps ≠ Config.stepCeiling) (hf : fetchWord s = none) :
    fetchStage s = enterFaulted s .fetchOutOfRange (position s.pc) (some s.pc) := by simp [fetchStage, h, hf]

/-- Fetching a word. -/
theorem fetchStage_word {s : State} (h : s.steps ≠ Config.stepCeiling) {w : Word} (hf : fetchWord s = some w) :
    fetchStage s = { s with phase := .decoding w } := by simp [fetchStage, h, hf]

/-- What the fetch unit answers. -/
theorem fetchWord_eq_some {s : State} {w : Word} :
    fetchWord s = some w ↔ s.pc.toNat % 4 = 0 ∧ s.prog[s.pc.toNat / 4]? = some w := by
  simp [fetchWord]

/-- No word is fetched exactly where the PC is no multiple of 4 or at or beyond 4·N. -/
theorem fetchWord_eq_none {s : State} :
    fetchWord s = none ↔ s.pc.toNat % 4 ≠ 0 ∨ s.prog.length ≤ s.pc.toNat / 4 := by
  by_cases h : s.pc.toNat % 4 = 0 <;> simp [fetchWord, h]

/-- A stage inside a step is followed by its row. -/
theorem finishStep_inside {n : Nat} {s : State} (h : s.phase.insideStep = true) :
    finishStep (n + 1) s =
      match advance s with
      | .next t => finishStep n t
      | .fault r => .fault r
      | .refused r => .refused r := by
  rw [finishStep]
  exact if_pos h

/-- Outside a step there is nothing left to do. -/
theorem finishStep_outside {n : Nat} {s : State} (h : s.phase.insideStep = false) : finishStep n s = .next s := by
  cases n with
  | zero => rfl
  | succ n => rw [finishStep, if_neg (by simp [h])]

/-- Executing leaves the inside of a step. -/
theorem exec_outside {i : Instr} {s t : State} (h : exec i s = .next t) : t.phase.insideStep = false := by
  obtain ⟨t', ht, hc⟩ := exec_cases i s
  rw [h] at ht
  cases ht
  rcases hc with ⟨f, m, p, rfl, -⟩ | ⟨r, -, rfl⟩ | ⟨rs1, imm, -, -, rfl⟩ <;> rfl

end Sys2Proof.Machine
end

