-- ==== Sys2Proof/Tests/Slice0.lean ====
section
/-! SUPPORT. Tests of single words and single steps, with results taken from spec/95_test_vectors.md (each cites its vector),
the smoke test of WellFormed, and a witness for the hypotheses of each statement of Certificates/Slice0/Obligations.lean. -/

namespace Sys2Proof.Tests

open Sys2Proof.Machine Sys2Proof.Safety

/-! ### Helpers -/

/-- A state at `Fetching` with one word placed at `pc`, and registers and slots written on top of reset. -/
def at_ (w : Word) (pc : Nat) (xs : List (RegIdx × Word)) (slots : List (Nat × Word)) : State :=
  let s0 : State := { State.reset with pc := BitVec.ofNat 32 pc, prog := placeWord [] (pc / 4) w }
  let s1 := xs.foldl (fun s p => writeReg s p.1 p.2) s0
  { s1 with mem := slots.foldl (fun m c => cellSet m c.1 c.2) s1.mem }

/-- What a question about the next state answers; `none` where there is no next state. -/
def after {α : Type} (o : Host.Outcome State Fault Refusal) (f : State → α) : Option α :=
  match o with
  | .next t => some (f t)
  | .fault _ => none
  | .refused _ => none

/-- Phase and PC of a state. -/
def seen (t : State) : Phase × Word := (t.phase, t.pc)

/-! ### WellFormed: an ill-formed term for each check, and its well-formed neighbour -/

theorem test_wellFormed_refuses_odd_beq : ¬ WellFormed (.beq 1 2 7) := by decide
theorem test_wellFormed_refuses_odd_bne : ¬ WellFormed (.bne 1 2 7) := by decide
theorem test_wellFormed_refuses_odd_blt : ¬ WellFormed (.blt 1 2 (-1)) := by decide
theorem test_wellFormed_refuses_odd_jal : ¬ WellFormed (.jal 1 13) := by decide
theorem test_wellFormed_accepts_even_offsets :
    WellFormed (.beq 1 2 6) ∧ WellFormed (.bne 1 2 6) ∧ WellFormed (.blt 1 2 (-2)) ∧ WellFormed (.jal 1 12) := by decide

/-! ### Decoding: a word for every constructor, written out bit by bit in the order of its format (R52, R61) -/


/-- rs2 rs1: V-A6 add x7,x5,x6. -/
theorem test_decode_add : decode 0b0000000_00110_00101_000_00111_0110011#32 = .instr (.add 7 5 6) := by decide

/-- P4 sub x12,x0,x10. -/
theorem test_decode_sub : decode 0b0100000_01010_00000_000_01100_0110011#32 = .instr (.sub 12 0 10) := by decide

/-- P4 slt x14,x12,x0. -/
theorem test_decode_slt : decode 0b0000000_00000_01100_010_01110_0110011#32 = .instr (.slt 14 12 0) := by decide

/-- P4 srl x13,x12,x10. -/
theorem test_decode_srl : decode 0b0000000_01010_01100_101_01101_0110011#32 = .instr (.srl 13 12 10) := by decide

/-- P4 or x15,x12,x10. -/
theorem test_decode_or : decode 0b0000000_01010_01100_110_01111_0110011#32 = .instr (.or 15 12 10) := by decide

/-- P4 and x16,x12,x10. -/
theorem test_decode_and : decode 0b0000000_01010_01100_111_10000_0110011#32 = .instr (.and 16 12 10) := by decide

/-- V-I2 addi x1,x0,-77. -/
theorem test_decode_addi : decode 0b111110110011_00000_000_00001_0010011#32 = .instr (.addi 1 0 (-77)) := by decide

/-- V-M6 lw x6,257(x5). -/
theorem test_decode_lw : decode 0b000100000001_00101_010_00110_0000011#32 = .instr (.lw 6 5 257) := by decide

/-- V-J10 jalr x1,x5,-4. -/
theorem test_decode_jalr : decode 0b111111111100_00101_000_00001_1100111#32 = .instr (.jalr 1 5 (-4)) := by decide

/-- V-I8 sw x11,124(x5). -/
theorem test_decode_sw : decode 0b0000011_01011_00101_010_11100_0100011#32 = .instr (.sw 5 11 124) := by decide

/-- V-I18 beq x1,x2,2048: only w[7] set. -/
theorem test_decode_beq : decode 0b0000000_00010_00001_000_00001_1100011#32 = .instr (.beq 1 2 2048) := by decide

/-- V-I13 bne x6,x0,-8. -/
theorem test_decode_bne : decode 0b1111111_00000_00110_001_11001_1100011#32 = .instr (.bne 6 0 (-8)) := by decide

/-- V-I14 blt x11,x12,-8. -/
theorem test_decode_blt : decode 0b1111111_01100_01011_100_11001_1100011#32 = .instr (.blt 11 12 (-8)) := by decide

/-- V-I22 jal x5,-8. -/
theorem test_decode_jal : decode 0b1_1111111100_1_11111111_00101_1101111#32 = .instr (.jal 5 (-8)) := by decide

/-- V-I25, V-I26, V-I24: the single bits `w[20]`, `w[12]` and `w[31]` of a jal. -/
theorem test_decode_jal_bits : decode 0x001000EF#32 = .instr (.jal 1 2048) ∧ decode 0x000010EF#32 = .instr (.jal 1 4096) ∧
    decode 0x800000EF#32 = .instr (.jal 1 0x100000#21) := by decide

/-- V-I17, V-I16: the smallest and the largest branch offset. -/
theorem test_decode_branch_ends : decode 0x80208063#32 = .instr (.beq 1 2 0x1000#13) ∧
    decode 0x7E208FE3#32 = .instr (.beq 1 2 4094) := by decide

/-- V-D1, V-D2, V-D6, V-D8, V-D16, V-D19, V-D22, V-D24, V-D27, V-D30: words outside the table. -/
theorem test_decode_unknown : ([0x00000000#32, 0xFFFFFFFF#32, 0x02000033#32, 0x00001033#32, 0x00001013#32, 0x00000003#32,
    0x00001067#32, 0x00000023#32, 0x00002063#32, 0x00000073#32] : List Word).map decode =
    List.replicate 10 .unknownInstruction := by decide

/-- V-D13, V-D14, V-D15: funct7 is not examined (decision D2). -/
theorem test_decode_funct7_ignored : decode 0x40005033#32 = .instr (.srl 0 0 0) ∧ decode 0x02005033#32 = .instr (.srl 0 0 0) ∧
    decode 0xFE007033#32 = .instr (.and 0 0 0) := by decide

/-- V-D31 to V-D35: the halt pattern. -/
theorem test_isHalt : isHalt 0x00000063#32 = true ∧ isHalt 0x00108063#32 = true ∧ isHalt 0x01FF8063#32 = true ∧
    isHalt 0x00208063#32 = false ∧ isHalt 0x00000463#32 = false ∧ isHalt 0x00004063#32 = false := by decide

/-- P4, V-I9, V-I13, V-I22: words the encoder gives back (30_encoding.md R68). -/
theorem test_encode : encode (.sub 12 0 10) = 0x40A00633#32 ∧ encode (.sw 5 5 381) = 0x1652AEA3#32 ∧
    encode (.bne 6 0 (-8)) = 0xFE031CE3#32 ∧ encode (.jal 5 (-8)) = 0xFF9FF2EF#32 := by decide

/-- V-D18: the host's question about a row. -/
theorem test_decodeTableWord : decodeTableWord 32 0x00002003 = some (.lw 0 0 0) ∧ decodeTableWord 32 0 = none := by decide

/-! ### Codec -/

/-- V-C2, V-C7, V-C12. -/
theorem test_decodeTwosComplement : decodeTwosComplement 0x800#12 = -2048 ∧ decodeTwosComplement 0x1000#13 = -4096 ∧
    decodeTwosComplement 0x1FFFF8#21 = -8 := by decide

/-- V-C14, V-C16, V-C19, V-C20, V-C5. -/
theorem test_codec : sext 0x800#12 = 0xFFFFF800#32 ∧ sext 0x1FF8#13 = 0xFFFFFFF8#32 ∧ u32 4294967301 = 5#32 ∧
    u32 (-4294967297) = 0xFFFFFFFF#32 ∧ encodeSigned32 (-2147483648) = 0x80000000#32 := by decide

/-! ### Single steps -/


/-- V-A1. -/
theorem test_add_wraps : after (step (at_ 0x002081B3#32 0 [(1, 0x7FFFFFFF#32), (2, 0x1#32)] [])) (fun t => (readReg t 3, seen t)) =
    some (0x80000000#32, .fetching, 0x4#32) := by decide

/-- V-A4: add to x0 writes nothing and goes on. -/
theorem test_add_x0 : after (step (at_ 0x00208033#32 8 [(1, 0x5#32), (2, 0x7#32)] [])) (fun t => (readReg t 0, seen t)) =
    some (0x0#32, .fetching, 0xC#32) := by decide

/-- V-A9. -/
theorem test_sub_negates_min : after (step (at_ 0x402001B3#32 0 [(2, 0x80000000#32)] [])) (fun t => (readReg t 3, seen t)) =
    some (0x80000000#32, .fetching, 0x4#32) := by decide

/-- V-A7. -/
theorem test_sub_order : after (step (at_ 0x402081B3#32 0 [(1, 0x0#32), (2, 0x1#32)] [])) (fun t => (readReg t 3, seen t)) =
    some (0xFFFFFFFF#32, .fetching, 0x4#32) := by decide

/-- V-A12. -/
theorem test_slt_overflow_corner : after (step (at_ 0x0020A1B3#32 0 [(1, 0x80000000#32), (2, 0x7FFFFFFF#32)] [])) (fun t => (readReg t 3, seen t)) =
    some (0x1#32, .fetching, 0x4#32) := by decide

/-- V-A15. -/
theorem test_slt_signed : after (step (at_ 0x0020A1B3#32 0 [(1, 0x0#32), (2, 0xFFFFFFFF#32)] [])) (fun t => (readReg t 3, seen t)) =
    some (0x0#32, .fetching, 0x4#32) := by decide

/-- V-A22. -/
theorem test_srl_masks_amount : after (step (at_ 0x0020D1B3#32 0 [(1, 0xDEADBEEF#32), (2, 0x24#32)] [])) (fun t => (readReg t 3, seen t)) =
    some (0xDEADBEE#32, .fetching, 0x4#32) := by decide

/-- V-A25. -/
theorem test_srl_logical_for_sra_word : after (step (at_ 0x4020D1B3#32 0 [(1, 0xFFFFFFF0#32), (2, 0x2#32)] [])) (fun t => (readReg t 3, seen t)) =
    some (0x3FFFFFFC#32, .fetching, 0x4#32) := by decide

/-- V-A27. -/
theorem test_or : after (step (at_ 0x0020E1B3#32 0 [(1, 0xFF00FF00#32), (2, 0xFF00FF0#32)] [])) (fun t => (readReg t 3, seen t)) =
    some (0xFFF0FFF0#32, .fetching, 0x4#32) := by decide

/-- V-A30. -/
theorem test_and : after (step (at_ 0x0020F1B3#32 0 [(1, 0xFF00FF00#32), (2, 0xFF00FF0#32)] [])) (fun t => (readReg t 3, seen t)) =
    some (0xF000F00#32, .fetching, 0x4#32) := by decide

/-- V-A32. -/
theorem test_and_funct7_ignored : after (step (at_ 0xFE20F1B3#32 0 [(1, 0xFF00FF00#32), (2, 0xFF00FF0#32)] [])) (fun t => (readReg t 3, seen t)) =
    some (0xF000F00#32, .fetching, 0x4#32) := by decide

/-- V-AI5. -/
theorem test_addi_negative : after (step (at_ 0xFFF08093#32 0 [(1, 0x80000000#32)] [])) (fun t => (readReg t 1, seen t)) =
    some (0x7FFFFFFF#32, .fetching, 0x4#32) := by decide

/-- V-AI7: from the reset value of x2. -/
theorem test_addi_stack_pointer : after (step (at_ 0xFFC10113#32 0 [] [])) (fun t => (readReg t 2, seen t)) =
    some (0x178#32, .fetching, 0x4#32) := by decide

/-- V-M10: rd = rs1 uses the old base. -/
theorem test_lw_old_base : after (step (at_ 0x0002A283#32 0 [(5, 0x10000#32)] [(0x10000, 0x77#32)])) (fun t => (readReg t 5, seen t)) =
    some (0x77#32, .fetching, 0x4#32) := by decide

/-- V-M5: misaligned inside the stack region. -/
theorem test_lw_misaligned_faults : after (step (at_ 0x00112183#32 0 [] [])) (fun t => (t.faultRecord, seen t)) =
    some (some ⟨.outOfRangeAccess, 1, some 0x17D#32⟩, .faulted, 0#32) := by decide

/-- V-J9. -/
theorem test_jalr_clears_bit_zero : after (step (at_ 0x00108067#32 40 [(1, 0x8#32)] [])) (fun t => (readReg t 1, seen t)) =
    some (0x8#32, .fetching, 0x8#32) := by decide

/-- V-J11 (decision D11). -/
theorem test_jalr_old_base : after (step (at_ 0x000080E7#32 16 [(1, 0x40#32)] [])) (fun t => (readReg t 1, seen t)) =
    some (0x14#32, .fetching, 0x40#32) := by decide

/-- V-M19. -/
theorem test_sw_top_of_data : after (step (at_ 0x06B2AE23#32 0 [(5, 0x10000#32), (11, 0xB#32)] [])) (fun t => (t.mem, seen t)) =
    some ([(0x1007C, 0xB#32)], .fetching, 4#32) := by decide

/-- V-M15: storing 0 leaves nothing listed. -/
theorem test_sw_zero_removes_entry : after (step (at_ 0x00012023#32 0 [] [(0x17C, 0x1234#32)])) (fun t => (t.mem, seen t)) =
    some ([], .fetching, 4#32) := by decide

/-- V-B3: equal fields, offset not 0. -/
theorem test_beq_taken_backward : after (step (at_ 0xFE108EE3#32 4 [(1, 0x7#32)] [])) (seen) =
    some (.fetching, 0x0#32) := by decide

/-- V-H1 (decisions D3, D6). -/
theorem test_beq_halt_pattern : after (step (at_ 0x00000063#32 12 [] [])) (fun t => (t.steps, t.trace.map (fun sn => sn.pc), seen t)) =
    some (1, [0xC#32], .halted, 0xC#32) := by decide

/-- V-H3: different fields with equal values. -/
theorem test_beq_self_branch_is_no_halt : after (step (at_ 0x00628063#32 8 [(5, 0x3#32), (6, 0x3#32)] [])) (seen) =
    some (.fetching, 0x8#32) := by decide

/-- V-B8. -/
theorem test_bne_taken : after (step (at_ 0xFE031CE3#32 16 [(6, 0xF#32)] [])) (seen) =
    some (.fetching, 0x8#32) := by decide

/-- V-B14. -/
theorem test_bne_zero_offset_is_no_halt : after (step (at_ 0x00009063#32 16 [(1, 0x5#32)] [])) (seen) =
    some (.fetching, 0x10#32) := by decide

/-- V-B13. -/
theorem test_blt_signed : after (step (at_ 0x0000C463#32 0 [(1, 0xFFFFFFFF#32)] [])) (seen) =
    some (.fetching, 0x8#32) := by decide

/-- V-B17. -/
theorem test_blt_not_taken : after (step (at_ 0x0020C463#32 0 [(1, 0x7FFFFFFF#32), (2, 0x80000000#32)] [])) (seen) =
    some (.fetching, 0x4#32) := by decide

/-- V-J2. -/
theorem test_jal_backward : after (step (at_ 0xFF9FF2EF#32 12 [] [])) (fun t => (readReg t 5, seen t)) =
    some (0x10#32, .fetching, 0x4#32) := by decide

/-- V-J5. -/
theorem test_jal_wraps : after (step (at_ 0xFF9FF0EF#32 4 [] [])) (fun t => (readReg t 1, seen t)) =
    some (0x8#32, .fetching, 0xFFFFFFFC#32) := by decide

/-! ### The driver -/

/-- F14: with no program the first fetch faults at position 1. -/
theorem test_step_reset : after (step State.reset) (fun t => (t.faultRecord, seen t)) =
    some (some ⟨.fetchOutOfRange, 1, some 0#32⟩, .faulted, 0#32) := by decide

/-- F5: the fetch at pc = 6 faults at position floor(6/4) + 1. -/
theorem test_step_misaligned_pc :
    after (step { State.reset with pc := 6#32, prog := [0x00600093#32, 0x00008067#32] })
      (fun t => (t.faultRecord, seen t)) = some (some ⟨.fetchOutOfRange, 2, some 6#32⟩, .faulted, 6#32) := by decide

/-- F3: an unlisted word at position 2. -/
theorem test_step_unknown : after (step (at_ 0x0020C1B3#32 4 [] [])) (fun t => (t.faultRecord, seen t)) =
    some (some ⟨.unknownInstruction, 2, none⟩, .faulted, 4#32) := by decide

/-- F12: the ceiling test precedes the fetch check. -/
theorem test_step_ceiling : after (step { State.reset with pc := 0x18#32, steps := 10000 }) seen =
    some (.ceilingHalted, 0x18#32) := by decide

/-- P1, line 1 of its program, as its input line. -/
def line1 : Text := "00000000101000000000001010010011".toList

/-- F18: the second of three lines has 31 characters. -/
theorem test_load_short_line : (load [line1, line1.tail, line1]).faultRecord = some ⟨.malformedInput, 2, none⟩ := by decide

/-- P1: the word of its first line. -/
theorem test_load_word : (load [line1]).prog = [0x00A00293#32] := by decide

/-- P1: the x2 field, the fourth, of a trace line stands at character 105 (R150). -/
theorem test_snapshotLine : ((snapshotLine (snapshot State.reset)).drop 105).take 35 =
    "0b00000000000000000000000101111100 ".toList := by decide

/-- P1: the x2 field of a trace line. -/
theorem test_wordText : wordText 0x17C#32 = "0b00000000000000000000000101111100".toList := by decide

/-- Decision D14's example of an address with its suggested style. -/
theorem test_addressToHex : addressToHex ⟨"0x".toList, true⟩ 0x1000C#32 = "0x0001000C".toList := by decide

/-! ### Witnesses: for each statement with hypotheses, a state and operands that meet them, at the ends of their ranges -/

/-- A small program: a load at 0, an unlisted word at 4, the halt pattern at 8. -/
def prog3 : List Word := [0x00012183#32, 0x00000000#32, 0x00000063#32]

/-- The state at byte address `pc` of that program. -/
def at3 (pc : Word) : State := { State.reset with prog := prog3, pc := pc }

theorem witness_DecodeIsMatchMaskTable :
    ((decodeTable.filter fun r => r.selects 0x0000706F#32).map fun r => r.mnemonic) = ["jal"] := by decide
theorem witness_EncodedInstructionDecodesToItself : WellFormed (.jal 31 0xFFFFE#21) ∧ WellFormed (.sw 0 31 0xFFF#12) := by
  decide
theorem witness_DecodedInstructionEncodesToItsWord :
    decode 0xFE007033#32 = .instr (.and 0 0 0) ∧ decode 0xFFFFF06F#32 = .instr (.jal 0 (-2)) := by decide
theorem witness_Funct7TellsAddFromSub :
    (0x00000033#32).extractLsb' 0 7 = 0b0110011#7 ∧ (0x00000033#32).extractLsb' 12 3 = 0b000#3 ∧
    (0x40000033#32).extractLsb' 0 7 = 0b0110011#7 ∧ (0x40000033#32).extractLsb' 12 3 = 0b000#3 ∧
    (0x02000033#32).extractLsb' 0 7 = 0b0110011#7 ∧ (0x02000033#32).extractLsb' 12 3 = 0b000#3 := by decide
theorem witness_Funct7NotExaminedOtherwise :
    (0x00005033#32).extractLsb' 0 7 = 0b0110011#7 ∧ (0x00005033#32).extractLsb' 12 3 = 0b101#3 ∧
    (0x40005033#32).extractLsb' 0 25 = (0x00005033#32).extractLsb' 0 25 ∧
    (0x00002033#32).extractLsb' 12 3 = 0b010#3 ∧ (0x00006033#32).extractLsb' 12 3 = 0b110#3 ∧
    (0x00007033#32).extractLsb' 12 3 = 0b111#3 := by decide
theorem witness_TwosComplementRoundTrip :
    signed (encodeSigned32 (-2147483648)) = -2147483648 ∧ signed (encodeSigned32 2147483647) = 2147483647 := by decide
theorem witness_SignExtendKeepsSignedReading : sext 1#1 = 0xFFFFFFFF#32 ∧ sext 0x80000000#32 = 0x80000000#32 := by decide
theorem witness_SubUndoesAdd : (3 : RegIdx) ≠ 0#5 ∧ (3 : RegIdx) ≠ 2 := by decide

/-- The encoding clause of each instruction's statement: words at both ends of their operand fields. -/
theorem witness_encoding_clauses :
    0x01FF8FB3#32 &&& 0xFE00707F#32 = 0x00000033#32 ∧ 0x41FF8FB3#32 &&& 0xFE00707F#32 = 0x40000033#32 ∧ 0xFFFFAFB3#32 &&& 0x0000707F#32 = 0x00002033#32 ∧
    0xFFFFDFB3#32 &&& 0x0000707F#32 = 0x00005033#32 ∧ 0xFFFFEFB3#32 &&& 0x0000707F#32 = 0x00006033#32 ∧
    0xFFFFFFB3#32 &&& 0x0000707F#32 = 0x00007033#32 ∧ 0xFFFF8F93#32 &&& 0x0000707F#32 = 0x00000013#32 ∧
    0xFFFFAF83#32 &&& 0x0000707F#32 = 0x00002003#32 ∧ 0xFFFF8FE7#32 &&& 0x0000707F#32 = 0x00000067#32 ∧
    0xFFFFAFA3#32 &&& 0x0000707F#32 = 0x00002023#32 ∧ 0xFFFF8FE3#32 &&& 0x0000707F#32 = 0x00000063#32 ∧
    0xFFFF9FE3#32 &&& 0x0000707F#32 = 0x00001063#32 ∧ 0xFFFFCFE3#32 &&& 0x0000707F#32 = 0x00004063#32 ∧
    0xFFFFFFEF#32 &&& 0x0000007F#32 = 0x0000006F#32 := by decide

/-- The slots at the ends of the two regions, and their neighbours, which are none. -/
theorem witness_ResolveExactlyTheSlots :
    IsSlot 0x100#32 ∧ IsSlot 0x17C#32 ∧ IsSlot 0x10000#32 ∧ IsSlot 0x1007C#32 ∧
    ¬ IsSlot 0xFC#32 ∧ ¬ IsSlot 0x180#32 ∧ ¬ IsSlot 0x17D#32 ∧ ¬ IsSlot 0xFFFC#32 ∧
    ¬ IsSlot 0x10080#32 ∧ ¬ IsSlot 0x1007E#32 ∧ ¬ IsSlot 0xFFFFFFFC#32 := by
  unfold IsSlot
  decide

/-- A state with a word in each region, and x5 at the start of the data region. -/
def twoWords : State := at_ 0#32 0 [(5, 0x10000#32)] [(0x17C, 5#32), (0x10000, 6#32)]

/-- The address the statements form. -/
def formed (s : State) (rs1 : RegIdx) (imm : BitVec 12) : Word := BitVec.ofInt 32 ((readReg s rs1).toInt + imm.toInt)

/-- Both clauses of lw, from x2 = 0x17C and x5 = 0x10000, at the ends of the regions and beside them; and a slot that
nothing is listed for. -/
theorem witness_LwLoadsOrFaults :
    IsSlot (formed twoWords 2 0) ∧ IsSlot (formed twoWords 2 (-124)) ∧ IsSlot (formed twoWords 5 0) ∧
    IsSlot (formed twoWords 5 124) ∧ ¬ IsSlot (formed twoWords 2 4) ∧ ¬ IsSlot (formed twoWords 2 (-128)) ∧
    ¬ IsSlot (formed twoWords 5 (-4)) ∧ ¬ IsSlot (formed twoWords 5 128) ∧ ¬ IsSlot (formed twoWords 5 1) ∧
    ∀ c ∈ twoWords.mem, c.1 ≠ (formed twoWords 5 124).toNat := by
  unfold IsSlot
  decide

/-- Both clauses of sw, with a memory in canonical form. -/
theorem witness_SwStoresOrFaults : Memory.wf twoWords.mem ∧ IsSlot (formed twoWords 2 0) ∧ IsSlot (formed twoWords 5 124) ∧
    ¬ IsSlot (formed twoWords 2 4) ∧ ¬ IsSlot (formed twoWords 5 (-4)) := by
  unfold IsSlot
  decide

/-- The document's scenario 2, with an addi between the two: x1 stored at 0(x2) and loaded into x3. -/
theorem witness_StoreThenLoadReturnsWord : ∃ t u, exec (.sw 2 1 0) (at_ 0#32 0 [(1, 7#32)] []) = .next t ∧ t.phase = .fetching ∧
    BitVec.ofInt 32 ((readReg (at_ 0#32 0 [(1, 7#32)] []) 2).toInt + (0#12).toInt) = 0x17C#32 ∧
    NoStoreTo 0x17C#32 t u ∧ u.steps = 2 ∧ BitVec.ofInt 32 ((readReg u 2).toInt + (0#12).toInt) = 0x17C#32 :=
  ⟨_, _, rfl, by decide, by decide,
    .exec _ _ (.addi 9 9 1) .start rfl (fun _ _ _ h => by cases h), by decide, by decide⟩

/-- The halting clause at x31, and the other at offset 0 with different fields, and at equal fields with another offset. -/
theorem witness_BeqBranchesOrHalts : ((31 : RegIdx) = 31 ∧ (0 : BitVec 13) = 0) ∧ ((5 : RegIdx) ≠ 6 ∨ (0 : BitVec 13) ≠ 0) ∧
    ((5 : RegIdx) ≠ 5 ∨ (2 : BitVec 13) ≠ 0) := by decide
theorem witness_OnlyBeqHaltsOnlyLoadStoreFaults : after (exec (.beq 31 31 0) State.reset) seen = some (.halted, 0#32) ∧
    after (exec (.lw 0 0 0) State.reset) seen = some (.faulted, 0#32) ∧
    after (exec (.sw 0 0 0) State.reset) seen = some (.faulted, 0#32) := by decide
theorem witness_X0DestinationDiscards : destination (.jalr 0 1 0) = some 0 ∧ destination (.lw 0 0 0) = some 0 := by decide

/-- Two states that differ in a register the instruction does not read. -/
theorem witness_RegisterUseTable : let s := State.reset; let s' := writeReg State.reset 9 4#32
    s'.pc = s.pc ∧ s'.mem = s.mem ∧ (∀ r ∈ sources (.add 3 1 2), readReg s' r = readReg s r) ∧ readReg s' 9 ≠ readReg s 9 := by
  decide
theorem witness_OnlySwChangesMemory : ∀ rs1 rs2 imm, Instr.lw 1 2 0 ≠ .sw rs1 rs2 imm := by
  intro rs1 rs2 imm h
  cases h
theorem witness_StepRunsDecodedInstruction : let s := at3 0#32
    s.phase = .fetching ∧ s.steps ≠ 10000 ∧ s.pc.toNat % 4 = 0 ∧ s.prog[s.pc.toNat / 4]? = some 0x00012183#32 ∧
    decode 0x00012183#32 = .instr (.lw 3 2 0) := by decide
theorem witness_CeilingEndsRun : let s : State := { at3 2#32 with steps := 10000 }
    s.phase = .fetching ∧ s.steps = 10000 := by decide

/-- The first address past the program, and a PC inside it that is no multiple of 4. -/
theorem witness_FetchOutsideProgramFaults : let s := at3 12#32; let u := at3 2#32
    (s.phase = .fetching ∧ s.steps ≠ 10000 ∧ s.prog.length ≤ s.pc.toNat / 4) ∧
    (u.phase = .fetching ∧ u.steps ≠ 10000 ∧ u.pc.toNat % 4 ≠ 0) := by decide
theorem witness_UnknownWordFaults : let s := at3 4#32
    (s.phase = .fetching ∧ s.steps ≠ 10000 ∧ s.pc.toNat % 4 = 0 ∧ s.prog[s.pc.toNat / 4]? = some 0#32 ∧
      decode 0#32 = .unknownInstruction) ∧
    ({ s with phase := .decoding 0x63#32 } : State).phase = .decoding 0x63#32 ∧
    decode 0x63#32 = .instr (.beq 0 0 0) := by decide
theorem witness_TerminalPhasesHaveNoStep : Ended { State.reset with phase := .halted } ∧
    Ended { State.reset with phase := .ceilingHalted } ∧ Ended { State.reset with phase := .faulted } ∧ ¬ Ended State.reset := by
  unfold Ended
  decide
/-- One state for each row from `Fetching`, `Decoding` and `Executing` (the load rows are those of
`witness_LoadChecksEveryLine`, the terminal row those of `witness_TerminalPhasesHaveNoStep`). -/
theorem witness_TransitionTableRows : let s := at3 8#32
    s.phase = .fetching ∧ s.steps ≠ 10000 ∧ s.pc.toNat % 4 = 0 ∧ s.prog[s.pc.toNat / 4]? = some 0x63#32 ∧
    decode 0x63#32 = .instr (.beq 0 0 0) ∧ ({ s with phase := .decoding 0x63#32 } : State).phase = .decoding 0x63#32 ∧
    ({ s with phase := .decoding 0#32 } : State).phase = .decoding 0#32 ∧ decode 0#32 = .unknownInstruction ∧
    (at3 12#32).prog.length ≤ (at3 12#32).pc.toNat / 4 ∧ ({ s with steps := 10000 } : State).steps = 10000 := by decide
theorem witness_TransitionTableRows_executing :
    let raises : State := { State.reset with phase := .executing (.lw 3 0 0) }
    let goesOn : State := { State.reset with phase := .executing (.lw 3 2 0) }
    let halts : State := { State.reset with phase := .executing (.beq 31 31 0) }
    (raises.phase = .executing (.lw 3 0 0) ∧ RaisesOutOfRange (.lw 3 0 0) raises) ∧
    (goesOn.phase = .executing (.lw 3 2 0) ∧ ¬ RaisesOutOfRange (.lw 3 2 0) goesOn ∧ ¬ IsHaltPattern (.lw 3 2 0)) ∧
    (halts.phase = .executing (.beq 31 31 0) ∧ IsHaltPattern (.beq 31 31 0)) := by
  refine ⟨⟨rfl, 0, 0, .inl ⟨3, rfl⟩, by unfold IsSlot; decide⟩, ⟨rfl, ?_, fun ⟨r, h⟩ => by cases h⟩, rfl, 31, rfl⟩
  rintro ⟨rs1, imm, ⟨rd, h⟩ | ⟨rs2, h⟩, hs⟩ <;> cases h
  revert hs
  unfold IsSlot
  decide

/-- One row (a fetch fault), two rows (an unlisted word) and three rows (an instruction). -/
theorem witness_AtomicStepIsTableRun : (rows 1 (at3 12#32)).map seen = some (.faulted, 12#32) ∧
    (rows 2 (at3 4#32)).map seen = some (.faulted, 4#32) ∧ (rows 3 (at3 8#32)).map seen = some (.halted, 8#32) := by decide

/-- The three kinds of fault a step can enter. -/
theorem witness_FaultEntryIsPrecise : after (step (at3 12#32)) seen = some (.faulted, 12#32) ∧
    after (step (at3 4#32)) seen = some (.faulted, 4#32) ∧
    after (step (at_ 0x00412183#32 0 [] [])) seen = some (.faulted, 0#32) := by decide
theorem witness_CommittedStepIsTraced : after (step (at3 0#32)) seen = some (.fetching, 4#32) ∧
    after (step (at3 8#32)) seen = some (.halted, 8#32) := by decide
theorem witness_ProgramMemoryImmutable : after (step (at3 0#32)) (fun t => t.prog) = some prog3 := by decide

/-- A consistent state with a step, that is not the state after reset: one step has been executed. -/
theorem witness_StepKeepsConsistent : ∃ s t, Consistent s ∧ s.steps = 1 ∧ step s = .next t := by
  refine ⟨{ at3 4#32 with steps := 1, trace := [⟨4#32, State.reset.regs⟩] }, _,
    ⟨reset_mem_wf, by decide, .inl rfl, rfl, ?_, ?_, ?_, by decide⟩, rfl, rfl⟩
  · intro sn h
    cases h
    rfl
  · simp [at3, State.reset]
  · intro h
    cases h
theorem witness_EveryRunEnds : State.reset.phase = .fetching ∧ State.reset.steps ≤ 10000 ∧
    ({ State.reset with steps := 10000 } : State).steps ≤ 10000 := by decide
theorem witness_LoadChecksEveryLine : LineOk line1 ∧ ¬ LineOk line1.tail ∧ ¬ LineOk ('x' :: line1.tail) := by
  refine ⟨⟨rfl, ?_⟩, fun h => absurd h.1 (by decide), fun h => absurd (h.2 'x' (.head _)) (by decide)⟩
  have all_binary : (line1.all fun c => c == '0' || c == '1') = true := by decide
  intro c h
  simpa using List.all_eq_true.1 all_binary c h
theorem witness_LoadedStateIsReset : loadCheck 1 [line1] = .words [0x00A00293#32] ∧ loadCheck 1 [] = .words [] := by decide
theorem witness_ProductsByTerminalPhase :
    let s : State := { State.reset with phase := .faulted, faultRecord := some ⟨.unknownInstruction, 1, none⟩ }
    s.phase = .faulted ∧ s.faultRecord = some ⟨.unknownInstruction, 1, none⟩ ∧
    ({ s with phase := .halted } : State).phase = .halted ∧
    ({ s with phase := .ceilingHalted } : State).phase = .ceilingHalted := by decide
/-- The first and the last field of a trace line: PC 0 and x31 = 0; and x2 at index 3. -/
theorem witness_SnapshotLineFormat : (snapshotFields (snapshot State.reset))[0]? = some 0#32 ∧
    (snapshotFields (snapshot State.reset))[3]? = some 0x17C#32 ∧
    (snapshotFields (snapshot State.reset))[32]? = some 0#32 := by decide
theorem witness_PlacedInstructionRunsNext : WellFormed (.blt 31 31 0xFFE#13) ∧
    after (step ({ at3 6#32 with phase := .faulted, steps := 10000 }.withFetchWord 32 (encode (.addi 1 0 5)).toNat))
      (fun t => (readReg t 1, seen t)) = some (5#32, .fetching, 8#32) := by decide

end Sys2Proof.Tests
end

