-- ==== Sys2Proof/Proofs/Memory.lean ====
section
/-! The resolution of an address, region by region, and what it says of reads and writes (20_memory.md R33, R36, R37). -/

namespace Sys2Proof.Proofs

open Sys2Proof.Machine Sys2Proof.Safety

/-! ### The regions an address resolves to -/

/-- The stack region ends below the start of the data region. -/
theorem isStackSlot_eq_false_of_isDataSlot {a : Nat} (h : isDataSlot a = true) : isStackSlot a = false := by
  rw [isDataSlot_iff] at h
  rw [Bool.eq_false_iff, ne_eq, isStackSlot_iff]
  omega

theorem resolve_eq_stack_iff (a : Word) : resolve a = some (.stack a) ↔ isStackSlot a.toNat = true := by
  unfold resolve
  split
  · simp_all
  · split <;> simp_all

/-- The stack region is tried first, which hides no data slot, as the regions have no address in common. -/
theorem resolve_eq_data_iff (a : Word) : resolve a = some (.data a) ↔ isDataSlot a.toNat = true := by
  by_cases hd : isDataSlot a.toNat = true
  · simp [resolve, hd, isStackSlot_eq_false_of_isDataSlot hd]
  · unfold resolve
    split <;> simp [hd]

theorem resolve_isSome_iff_isSlot (a : Word) : (resolve a).isSome = true ↔ IsSlot a := by
  rw [resolve_isSome, Bool.or_eq_true, isStackSlot_iff, isDataSlot_iff, IsSlot, and_or_left]

theorem resolve_eq_none_iff (a : Word) : resolve a = none ↔ ¬ IsSlot a := by
  rw [← resolve_isSome_iff_isSlot, Option.not_isSome_iff_eq_none]

/-! ### Where reads and writes succeed -/

theorem memRead_isSome_iff_isSlot (m : Memory) (a : Word) : (memRead m a).isSome = true ↔ IsSlot a := by
  rw [memRead, Option.isSome_map, resolve_isSome_iff_isSlot]

theorem memWrite_isSome_iff_isSlot (m : Memory) (a v : Word) : (memWrite m a v).isSome = true ↔ IsSlot a := by
  rw [memWrite, Option.isSome_map, resolve_isSome_iff_isSlot]

/-- Settles O19, from the region each branch of the resolution stands for: the two regions are disjoint, and reads and
writes succeed where the resolution does. -/
theorem resolveExactlyTheSlots : Obligations.ResolveExactlyTheSlots := by
  intro a
  refine ⟨?stack, ?data, resolve_eq_none_iff a, fun m v =>
    ⟨memRead_isSome_iff_isSlot m a, memWrite_isSome_iff_isSlot m a v⟩⟩
  case stack => rw [resolve_eq_stack_iff, isStackSlot_iff]
  case data => rw [resolve_eq_data_iff, isDataSlot_iff]

end Sys2Proof.Proofs
end

