-- ==== Sys2Proof/Proofs/Codec.lean ====
section
/-! The two's-complement codec (30_encoding.md R53 to R55): what the two encoders do in terms of the two readings of a word,
and what sign extension does to a field of any width up to 32. -/

namespace Sys2Proof.Proofs

open Sys2Proof.Machine

/-! ### Narrowing and the signed reading (R54) -/

theorem toNat_u32 (z : Int) : ((u32 z).toNat : Int) = z % 2 ^ 32 := by
  rw [u32_eq_ofInt, BitVec.toNat_ofInt, Int.toNat_of_nonneg (Int.emod_nonneg z (by decide))]
  rfl

theorem signed_u32 {z : Int} (hlo : -2 ^ 31 ≤ z) (hhi : z < 2 ^ 31) : signed (u32 z) = z := by
  rw [signed_eq_toInt, u32_eq_ofInt]
  exact BitVec.toInt_ofInt_eq_self (by decide) hlo hhi

@[simp] theorem u32_signed (w : Word) : u32 (signed w) = w := by rw [signed_eq_toInt, u32_toInt]

theorem signed_range (w : Word) : -2 ^ 31 ≤ signed w ∧ signed w < 2 ^ 31 := by
  rw [signed_eq_toInt]
  exact ⟨BitVec.le_toInt w, BitVec.toInt_lt⟩

/-- On its range R54's case split on the sign is the remainder modulo 2^32. -/
theorem encodeSigned32_eq_u32 {z : Int} (hlo : -2 ^ 31 ≤ z) (hhi : z < 2 ^ 31) : encodeSigned32 z = u32 z := by
  unfold encodeSigned32 u32
  split
  case isTrue h => rw [Int.emod_eq_of_lt h (by omega)]
  case isFalse h => rw [← Int.add_emod_left, Int.emod_eq_of_lt (by omega) (by omega)]

@[simp] theorem encodeSigned32_signed (w : Word) : encodeSigned32 (signed w) = w := by
  obtain ⟨hlo, hhi⟩ := signed_range w
  rw [encodeSigned32_eq_u32 hlo hhi, u32_signed]

theorem toNat_encodeSigned32 {z : Int} (hlo : -2 ^ 31 ≤ z) (hhi : z < 2 ^ 31) :
    ((encodeSigned32 z).toNat : Int) = if 0 ≤ z then z else 2 ^ 32 + z := by
  rw [encodeSigned32_eq_u32 hlo hhi, toNat_u32]
  split <;> omega

/-- Settles O9, as `encodeSigned32` is `u32` on its range and the signed reading of every word lies in it. -/
theorem twosComplementRoundTrip : Obligations.TwosComplementRoundTrip := by
  refine ⟨fun z hlo hhi => ⟨toNat_encodeSigned32 hlo hhi, ?signedReading, encodeSigned32_eq_u32 hlo hhi⟩,
    fun w => ⟨u32_signed w, encodeSigned32_signed w⟩, toNat_u32⟩
  case signedReading => rw [encodeSigned32_eq_u32 hlo hhi, signed_u32 hlo hhi]

/-! ### Sign extension (R55) -/

theorem signed_sext {n : Nat} (v : BitVec n) (hn : n ≤ 32) : signed (sext v) = decodeTwosComplement v := by
  rw [signed_eq_toInt, sext, BitVec.toInt_signExtend_of_le hn, decodeTwosComplement_eq_toInt]

theorem getLsbD_sext {n : Nat} (v : BitVec n) {k : Nat} (hk : k < 32) :
    (sext v).getLsbD k = v.getLsbD (if k < n then k else n - 1) := by
  rw [sext, BitVec.getLsbD_signExtend, BitVec.msb_eq_getLsbD_last, decide_eq_true hk, Bool.true_and, ← apply_ite]

/-- The sign of a field is its bit N − 1 (R53). -/
theorem decodeTwosComplement_eq_ite_getLsbD {n : Nat} (v : BitVec n) :
    decodeTwosComplement v = if v.getLsbD (n - 1) then (v.toNat : Int) - 2 ^ n else v.toNat := by
  rw [decodeTwosComplement, BitVec.msb_eq_getLsbD_last]

/-- Settles O10, as the library's sign extension keeps the signed reading and copies the sign bit, which is bit N − 1. -/
theorem signExtendKeepsSignedReading : Obligations.SignExtendKeepsSignedReading := by
  intro n v _ hn
  refine ⟨?_, signed_sext v hn, fun k hk => getLsbD_sext v hk⟩
  rw [signed_sext v hn, decodeTwosComplement_eq_ite_getLsbD]

/-- A field of N = n + 1 bits, sign-extended, reads as its own value in the lower half of the 2^N values and as that less
2^N in the upper half. -/
theorem signed_sext_eq_ite_toNat {n : Nat} (v : BitVec (n + 1)) (hn : n < 32) :
    signed (sext v) = if v.toNat < 2 ^ n then (v.toNat : Int) else v.toNat - 2 ^ (n + 1) := by
  rw [signed_sext v hn, decodeTwosComplement, BitVec.msb_eq_decide, Nat.add_sub_cancel]
  simp only [decide_eq_true_eq, ← not_lt, ite_not]

theorem signed_sext_range {n : Nat} (v : BitVec (n + 1)) (hn : n < 32) :
    -2 ^ n ≤ signed (sext v) ∧ signed (sext v) < 2 ^ n := by
  rw [signed_sext v hn, decodeTwosComplement_eq_toInt]
  exact ⟨BitVec.le_toInt v, BitVec.toInt_lt⟩

/-- The sign bit weighs 2^N, an even number, so sign extension keeps a field's parity. -/
theorem signed_sext_emod_two {n : Nat} (v : BitVec (n + 1)) (hn : n < 32) :
    signed (sext v) % 2 = (v.toNat : Int) % 2 := by
  rw [signed_sext_eq_ite_toNat v hn]
  split <;> omega

end Sys2Proof.Proofs
end

