-- ==== Sys2Proof/Proofs/Encoding.lean ====
section
/-! The raw immediates as digits of the word and as signed numbers (30_encoding.md R56 to R59), and what the decoder answers
under the opcode and funct3 of add and sub (R62). -/

namespace Sys2Proof.Proofs

open Sys2Proof.Machine

/-! ### The immediates as numbers -/

/-- Concatenation places the left part's digits above the right part's. -/
theorem toNat_append_eq_add {m n : Nat} (x : BitVec m) (y : BitVec n) :
    (x ++ y).toNat = x.toNat * 2 ^ n + y.toNat := by
  rw [BitVec.toNat_append, ← Nat.shiftLeft_add_eq_or_of_lt y.isLt, Nat.shiftLeft_eq]

theorem toNat_extractLsb'_eq_digits (w : Word) (start len : Nat) :
    (w.extractLsb' start len).toNat = w.toNat / 2 ^ start % 2 ^ len := by
  rw [BitVec.extractLsb'_toNat, Nat.shiftRight_eq_div_pow]

theorem toNat_immIOf (w : Word) : (immIOf w).toNat = w.toNat / 2 ^ 20 := by
  rw [immIOf, toNat_extractLsb'_eq_digits]
  omega

theorem toNat_immSOf (w : Word) :
    (immSOf w).toNat = w.toNat / 2 ^ 25 * 2 ^ 5 + w.toNat / 2 ^ 7 % 2 ^ 5 := by
  simp only [immSOf, toNat_append_eq_add, toNat_extractLsb'_eq_digits]
  omega

theorem toNat_immBOf (w : Word) :
    (immBOf w).toNat = w.toNat / 2 ^ 31 * 2 ^ 12 + w.toNat / 2 ^ 7 % 2 * 2 ^ 11 +
      w.toNat / 2 ^ 25 % 2 ^ 6 * 2 ^ 5 + w.toNat / 2 ^ 8 % 2 ^ 4 * 2 := by
  simp only [immBOf, toNat_append_eq_add, toNat_extractLsb'_eq_digits, BitVec.toNat_ofNat]
  omega

theorem toNat_immJOf (w : Word) :
    (immJOf w).toNat = w.toNat / 2 ^ 31 * 2 ^ 20 + w.toNat / 2 ^ 12 % 2 ^ 8 * 2 ^ 12 +
      w.toNat / 2 ^ 20 % 2 * 2 ^ 11 + w.toNat / 2 ^ 21 % 2 ^ 10 * 2 := by
  simp only [immJOf, toNat_append_eq_add, toNat_extractLsb'_eq_digits, BitVec.toNat_ofNat]
  omega

/-- The operand value of a 12-bit immediate (R56, R57). -/
theorem signed_sext_imm12 (imm : BitVec 12) :
    signed (sext imm) = (if imm.toNat < 2 ^ 11 then (imm.toNat : Int) else imm.toNat - 2 ^ 12) ∧
      -2048 ≤ signed (sext imm) ∧ signed (sext imm) ≤ 2047 := by
  have hvalue := signed_sext_eq_ite_toNat imm (by decide)
  obtain ⟨hlo, hhi⟩ := signed_sext_range imm (by decide)
  exact ⟨hvalue, by omega, by omega⟩

/-- A field whose bit 0 is 0, sign-extended, reads as an even number, so its greatest value is 2 below the bound (R58, R59). -/
theorem signed_sext_of_bit_zero {n : Nat} (off : BitVec (n + 1)) (hn : n < 32) (hn0 : n ≠ 0) (h0 : off[0] = false) :
    -2 ^ n ≤ signed (sext off) ∧ signed (sext off) ≤ 2 ^ n - 2 ∧ signed (sext off) % 2 = 0 := by
  have heven : signed (sext off) % 2 = 0 := by
    rw [BitVec.getElem_eq_testBit_toNat, ← Nat.mod_two_eq_zero_iff_testBit_zero] at h0
    rw [signed_sext_emod_two off hn]
    omega
  obtain ⟨hlo, hhi⟩ := signed_sext_range off hn
  obtain ⟨m, rfl⟩ := Nat.exists_eq_succ_of_ne_zero hn0
  rw [pow_succ] at hlo hhi ⊢
  omega

/-- Settles O3: the raw immediates digit by digit, their values by the general facts on sign extension; the offsets of B and
J are even as their bit 0 is 0. -/
theorem immediatesAreAssembled : Obligations.ImmediatesAreAssembled := fun w =>
  ⟨toNat_immIOf w, toNat_immSOf w, toNat_immBOf w, toNat_immJOf w,
    signed_sext_imm12 (immIOf w), signed_sext_imm12 (immSOf w),
    ⟨signed_sext_eq_ite_toNat (immBOf w) (by decide),
      signed_sext_of_bit_zero (immBOf w) (by decide) (by decide) (immBOf_bit_zero w)⟩,
    ⟨signed_sext_eq_ite_toNat (immJOf w) (by decide),
      signed_sext_of_bit_zero (immJOf w) (by decide) (by decide) (immJOf_bit_zero w)⟩⟩

/-! ### The R-type column under funct3 000 -/

theorem decode_eq_decodeR {w : Word} (hop : opcodeOf w = 0b0110011#7) : decode w = decodeR w := by
  rw [decode, if_pos hop]

theorem decodeR_of_funct3_zero {w : Word} (hf3 : funct3Of w = 0b000#3) :
    decodeR w =
      if funct7Of w = 0b0000000#7 then .instr (.add (rdOf w) (rs1Of w) (rs2Of w))
      else if funct7Of w = 0b0100000#7 then .instr (.sub (rdOf w) (rs1Of w) (rs2Of w))
      else .unknownInstruction := by
  rw [decodeR, if_pos hf3]

/-- Settles O6: the opcode selects the R-type column and funct3 its first row, where only funct7 is left to examine. -/
theorem funct7TellsAddFromSub : Obligations.Funct7TellsAddFromSub := by
  intro w hop hf3
  calc decode w = decodeR w := decode_eq_decodeR hop
    _ = _ := decodeR_of_funct3_zero hf3

end Sys2Proof.Proofs
end

