-- ==== Sys2Proof/Proofs/Commit.lean ====
section
/-! A committed step in the terms claims are made in (45_driver.md R145): what it writes, that all else is as before, and
what the registers read as afterwards. -/

namespace Sys2Proof.Proofs

open Sys2Proof.Machine Sys2Proof.Safety

/-- Whatever a commit has put into the registers and the slots, the step is counted and traced, and program memory and fault
record stay. -/
theorem countStep_committed (s : State) (f : RegFile) (m : Memory) (pc : Word) (phase : Phase) :
    Committed s (countStep { s with regs := f, mem := m, pc := pc, phase := phase }) pc phase :=
  ⟨rfl, rfl, countStep_steps _, ⟨_, countStep_trace _, rfl, fun _ => rfl⟩, rfl, rfl⟩

theorem commit_writeRegResult_writesRegister (s : State) (rd : RegIdx) (v pc : Word) :
    WritesRegister s (commit s (writeRegResult rd v pc)) rd v pc := by
  rw [commit_writeReg]
  exact ⟨fun r => regGet_regSet s.regs rd r v, fun _ => rfl, countStep_committed s _ s.mem pc .fetching⟩

/-- An instruction whose result is one register write at the next sequential PC completes with just that write. -/
theorem exec_writesRegister {i : Instr} {s : State} {rd : RegIdx} {v : Word}
    (h : exec i s = finish s (writeRegResult rd v (nextPc s))) :
    ∃ t, exec i s = .next t ∧ WritesRegister s t rd v (s.pc + 4#32) := by
  rw [← nextPc_eq]
  exact ⟨_, h, commit_writeRegResult_writesRegister s rd v (nextPc s)⟩

/-! ### Reading registers after a step that writes one -/

theorem readReg_destination {s t : State} {rd : RegIdx} {v : Word} (h : OnlyRegister s t rd v) (hrd : rd ≠ 0#5) :
    readReg t rd = v := (h rd).trans (if_pos ⟨rfl, hrd⟩)

theorem readReg_of_ne_destination {s t : State} {rd r : RegIdx} {v : Word} (h : OnlyRegister s t rd v) (hr : r ≠ rd) :
    readReg t r = readReg s r := (h r).trans (if_neg fun hc => hr hc.1)

end Sys2Proof.Proofs
end

