-- ==== Sys2Proof/Proofs/AluRegister.lean ====
section
/-! The register ALU instructions add and sub (40_alu_register.md R83, R84, R89). -/

namespace Sys2Proof.Proofs

open Sys2Proof.Machine Sys2Proof.Safety

/-! ### The results add and sub commit, and their exact arithmetic -/

theorem addWords_eq_ofInt (a b : Word) : addWords a b = BitVec.ofInt 32 (a.toInt + b.toInt) := by
  rw [addWords, u32_eq_ofInt, signed_eq_toInt, signed_eq_toInt]

theorem subWords_eq_ofInt (a b : Word) : subWords a b = BitVec.ofInt 32 (a.toInt - b.toInt) := by
  rw [subWords, u32_eq_ofInt, signed_eq_toInt, signed_eq_toInt]

theorem exec_add (rd rs1 rs2 : RegIdx) (s : State) :
    exec (.add rd rs1 rs2) s =
      finish s (writeRegResult rd (addWords (readReg s rs1) (readReg s rs2)) (nextPc s)) := rfl

theorem exec_sub (rd rs1 rs2 : RegIdx) (s : State) :
    exec (.sub rd rs1 rs2) s =
      finish s (writeRegResult rd (subWords (readReg s rs1) (readReg s rs2)) (nextPc s)) := rfl

/-! ### Their words -/

theorem decode_of_add_mask {w : Word} (h : w &&& 0xFE00707F#32 = 0x00000033#32) :
    decode w = .instr (.add (rdOf w) (rs1Of w) (rs2Of w)) := by
  obtain ⟨hop, hf3, hf7⟩ := fields_of_mask_funct7 h
  exact (funct7TellsAddFromSub w hop hf3).trans (if_pos hf7)

theorem decode_of_sub_mask {w : Word} (h : w &&& 0xFE00707F#32 = 0x40000033#32) :
    decode w = .instr (.sub (rdOf w) (rs1Of w) (rs2Of w)) := by
  obtain ⟨hop, hf3, hf7⟩ := fields_of_mask_funct7 h
  have hnotAdd : funct7Of w ≠ 0b0000000#7 := by
    rw [hf7]
    decide
  calc decode w = _ := funct7TellsAddFromSub w hop hf3
    _ = _ := if_neg hnotAdd
    _ = _ := if_pos hf7

/-- Settles O12: the masked bits of an add word leave its funct7 branch alone, and the adder's result, written at the next
sequential PC, is the whole of what add commits. -/
theorem addWritesWrappedSum : Obligations.AddWritesWrappedSum := by
  refine ⟨fun w h => decode_of_add_mask h, fun s rd rs1 rs2 => ?_⟩
  rw [← addWords_eq_ofInt]
  exact exec_writesRegister (exec_add rd rs1 rs2 s)

/-- Settles O13, as O12, with the second funct7 branch and the difference. -/
theorem subWritesWrappedDifference : Obligations.SubWritesWrappedDifference := by
  refine ⟨fun w h => decode_of_sub_mask h, fun s rd rs1 rs2 => ?_⟩
  rw [← subWords_eq_ofInt]
  exact exec_writesRegister (exec_sub rd rs1 rs2 s)

/-! ### sub undoes add (R89) -/

theorem subWords_addWords (a b : Word) : subWords (addWords a b) b = a := by
  rw [addWords_eq_add, subWords_eq_sub, BitVec.add_sub_cancel]

/-- Settles O11: the law on words is `subWords_addWords`; between the two instructions `x[rs2]` is kept, as add writes only
`x[rd]`. -/
theorem subUndoesAdd : Obligations.SubUndoesAdd := by
  refine ⟨subWords_addWords, fun s rd rs1 rs2 hrd hne => ?_⟩
  obtain ⟨t, hadd, htReg, -⟩ := exec_writesRegister (exec_add rd rs1 rs2 s)
  obtain ⟨u, hsub, huReg, -⟩ := exec_writesRegister (exec_sub rd rd rs2 t)
  refine ⟨t, u, hadd, hsub, ?_⟩
  calc readReg u rd
      = subWords (readReg t rd) (readReg t rs2) := readReg_destination huReg hrd
    _ = subWords (addWords (readReg s rs1) (readReg s rs2)) (readReg s rs2) := by
        rw [readReg_destination htReg hrd, readReg_of_ne_destination htReg hne.symm]
    _ = readReg s rs1 := subWords_addWords _ _

end Sys2Proof.Proofs
end

