-- ==== Sys2Proof/Proofs/AluImmediate.lean ====
section
/-! The immediate ALU instruction addi (41_alu_immediate.md R100), and the sum of a register and a sign-extended immediate. -/

namespace Sys2Proof.Proofs

open Sys2Proof.Machine Sys2Proof.Safety

/-! ### The sum with an immediate, and what addi commits -/

/-- The adder reads a sign-extended field of any width up to 32 as the field's own signed value. -/
theorem addWords_sext_eq_ofInt {n : Nat} (a : Word) (v : BitVec n) (hn : n ≤ 32) :
    addWords a (sext v) = BitVec.ofInt 32 (a.toInt + v.toInt) := by
  rw [addWords_eq_ofInt, sext, BitVec.toInt_signExtend_of_le hn]

theorem exec_addi (rd rs1 : RegIdx) (imm : BitVec 12) (s : State) :
    exec (.addi rd rs1 imm) s =
      finish s (writeRegResult rd (addWords (readReg s rs1) (sext imm)) (nextPc s)) := rfl

/-! ### Its words -/

theorem decode_of_addi_fields {w : Word} (hop : opcodeOf w = 0b0010011#7) (hf3 : funct3Of w = 0b000#3) :
    decode w = .instr (.addi (rdOf w) (rs1Of w) (immIOf w)) := by
  have hnotR : opcodeOf w ≠ 0b0110011#7 := by
    rw [hop]
    decide
  rw [decode, if_neg hnotR, if_pos hop, if_pos hf3]

theorem decode_of_addi_mask {w : Word} (h : w &&& 0x0000707F#32 = 0x00000013#32) :
    decode w = .instr (.addi (rdOf w) (rs1Of w) (immIOf w)) := by
  obtain ⟨hop, hf3⟩ := fields_of_mask_funct3 h
  exact decode_of_addi_fields hop hf3

/-- Settles O18: opcode and funct3 alone select addi's row, and the exact sum with the immediate's signed value, narrowed to a
word and written at the next sequential PC, is the whole of what addi commits. -/
theorem addiAddsSignedImmediate : Obligations.AddiAddsSignedImmediate := by
  refine ⟨fun w h => decode_of_addi_mask h, fun s rd rs1 imm => ?_⟩
  rw [← addWords_sext_eq_ofInt _ imm (by decide)]
  exact exec_writesRegister (exec_addi rd rs1 imm s)

end Sys2Proof.Proofs
end

