-- ==== Sys2Proof/Proofs/LoadStore.lean ====
section
/-! Load after store (42_load_store.md R105 to R108): what an instruction may do to memory, that a slot no store names keeps
its word, and what lw and sw commit where they succeed. -/

namespace Sys2Proof.Proofs

open Sys2Proof.Machine Sys2Proof.Safety

theorem effectiveAddress_eq_ofInt (s : State) (rs1 : RegIdx) (imm : BitVec 12) :
    effectiveAddress s rs1 imm = BitVec.ofInt 32 ((readReg s rs1).toInt + imm.toInt) :=
  addWords_sext_eq_ofInt (readReg s rs1) imm (by decide)

/-! ### Memory across instructions -/

/-- Only a sw changes memory, by one write at the address it forms. -/
theorem exec_mem_cases {i : Instr} {s t : State} (h : exec i s = .next t) :
    t.mem = s.mem ∨ ∃ rs1 rs2 imm, i = .sw rs1 rs2 imm ∧
      memWrite s.mem (effectiveAddress s rs1 imm) (readReg s rs2) = some t.mem := by
  obtain ⟨t', ht, hcases⟩ := exec_cases i s
  obtain rfl : t = t' := Host.Outcome.next.inj (h.symm.trans ht)
  obtain ⟨f, m, p, rfl, -, hmem⟩ | ⟨r, -, rfl⟩ | ⟨rs1, imm, -, -, rfl⟩ := hcases
  case inl => exact hmem
  case inr.inl => exact .inl rfl
  case inr.inr => exact .inl rfl

theorem exec_keeps_mem_wf {i : Instr} {s t : State} (hwf : Memory.wf s.mem) (h : exec i s = .next t) :
    Memory.wf t.mem := by
  obtain hsame | ⟨rs1, rs2, imm, -, hwrite⟩ := exec_mem_cases h
  · rwa [hsame]
  · exact memWrite_wf hwf hwrite

/-- An address that the instruction, if a sw, does not form reads as before. -/
theorem exec_keeps_memRead {i : Instr} {s t : State} {a : Word} (hwf : Memory.wf s.mem) (h : exec i s = .next t)
    (hother : ∀ rs1 rs2 imm, i = .sw rs1 rs2 imm → BitVec.ofInt 32 ((readReg s rs1).toInt + imm.toInt) ≠ a) :
    memRead t.mem a = memRead s.mem a := by
  obtain hsame | ⟨rs1, rs2, imm, hsw, hwrite⟩ := exec_mem_cases h
  · rw [hsame]
  · have hne : effectiveAddress s rs1 imm ≠ a := by
      rw [effectiveAddress_eq_ofInt]
      exact hother rs1 rs2 imm hsw
    rw [memRead_memWrite hwf hwrite, if_neg hne.symm]

/-- The canonical form has to be carried along, as a store to another slot keeps this one only in a canonical memory. -/
theorem noStoreTo_keeps_wf_and_memRead {a : Word} {s u : State} (hwf : Memory.wf s.mem) (h : NoStoreTo a s u) :
    Memory.wf u.mem ∧ memRead u.mem a = memRead s.mem a := by
  induction h with
  | start => exact ⟨hwf, rfl⟩
  | exec t u i _ hexec hother ih =>
    obtain ⟨htwf, hread⟩ := ih
    exact ⟨exec_keeps_mem_wf htwf hexec, (exec_keeps_memRead htwf hexec hother).trans hread⟩

/-! ### What lw and sw commit -/

theorem exec_lw (rd rs1 : RegIdx) (imm : BitVec 12) (s : State) :
    exec (.lw rd rs1 imm) s = finish s (loadResult s rd (effectiveAddress s rs1 imm)) := rfl

theorem exec_sw (rs1 rs2 : RegIdx) (imm : BitVec 12) (s : State) :
    exec (.sw rs1 rs2 imm) s = finish s (storeResult s (effectiveAddress s rs1 imm) (readReg s rs2)) := rfl

theorem loadResult_of_memRead {s : State} {rd : RegIdx} {a v : Word} (h : memRead s.mem a = some v) :
    loadResult s rd a = writeRegResult rd v (nextPc s) := by
  rw [loadResult, h]

theorem exec_lw_writesRegister {s : State} {rd rs1 : RegIdx} {imm : BitVec 12} {v : Word}
    (h : memRead s.mem (effectiveAddress s rs1 imm) = some v) :
    ∃ t, exec (.lw rd rs1 imm) s = .next t ∧ WritesRegister s t rd v (s.pc + 4#32) := by
  apply exec_writesRegister
  rw [exec_lw, loadResult_of_memRead h]

/-- A sw that ends in `Fetching` has not faulted, so its memory write has succeeded. -/
theorem memWrite_of_exec_sw {s t : State} {rs1 rs2 : RegIdx} {imm : BitVec 12} (h : exec (.sw rs1 rs2 imm) s = .next t)
    (hphase : t.phase = .fetching) :
    memWrite s.mem (effectiveAddress s rs1 imm) (readReg s rs2) = some t.mem := by
  rw [exec_sw, finish, commit_store] at h
  split at h
  · obtain rfl := Host.Outcome.next.inj h
    assumption
  · obtain rfl := Host.Outcome.next.inj h
    cases hphase

/-- Settles O22: the store leaves its word at `a`, no instruction between changes what `a` reads as, and the lw commits what
it reads there. -/
theorem storeThenLoadReturnsWord : Obligations.StoreThenLoadReturnsWord := by
  intro s t u rs1 rs2 rd rb imm imm' a hwf hsaddr hstore hphase hbetween hladdr
  rw [← effectiveAddress_eq_ofInt] at hsaddr hladdr
  have hwrite : memWrite s.mem a (readReg s rs2) = some t.mem := hsaddr ▸ memWrite_of_exec_sw hstore hphase
  obtain ⟨-, hkept⟩ := noStoreTo_keeps_wf_and_memRead (exec_keeps_mem_wf hwf hstore) hbetween
  have hread : memRead u.mem a = some (readReg s rs2) :=
    calc memRead u.mem a
        = memRead t.mem a := hkept
      _ = some (readReg s rs2) := by rw [memRead_memWrite hwf hwrite, if_pos rfl]
  obtain ⟨v, hload, hreg, -, -, hfetching, -⟩ := exec_lw_writesRegister (rd := rd) (hladdr.symm ▸ hread)
  exact ⟨v, hload, hreg, hfetching⟩

end Sys2Proof.Proofs
end

