-- ==== Sys2Proof/Proofs/ControlTransfer.lean ====
section
/-! The control transfers bne, blt and jal (43_control_transfer.md R115, R118, R119, R121, R122). -/

namespace Sys2Proof.Proofs

open Sys2Proof.Machine Sys2Proof.Safety

/-! ### PC-relative targets and branches -/

/-- A relative target is the exact sum of the PC's unsigned reading and the offset's own signed value, narrowed to a word. -/
theorem relativeTarget_eq_ofInt {n : Nat} (s : State) (off : BitVec n) (hn : n ≤ 32) :
    relativeTarget s off = BitVec.ofInt 32 ((s.pc.toNat : Int) + off.toInt) := by
  rw [relativeTarget, u32_eq_ofInt, unsigned_eq_toNat, signed_sext off hn, decodeTwosComplement_eq_toInt]

theorem commit_jumpResult_onlyJumps (s : State) (pc : Word) : OnlyJumps s (commit s (jumpResult pc)) pc := by
  rw [commit_jump]
  exact ⟨fun _ => rfl, fun _ => rfl, countStep_committed s s.regs s.mem pc .fetching⟩

/-- An instruction whose result is a conditional branch completes and only jumps: to its target where the condition holds and
to the next sequential PC where not. -/
theorem exec_branch_onlyJumps {i : Instr} {s : State} {taken : Bool} {off : BitVec 13}
    (h : exec i s = finish s (branchResult s taken off)) :
    ∃ t, exec i s = .next t ∧
      OnlyJumps s t (if taken then BitVec.ofInt 32 ((s.pc.toNat : Int) + off.toInt) else s.pc + 4#32) := by
  rw [← relativeTarget_eq_ofInt s off (by decide), ← nextPc_eq]
  exact ⟨_, h, commit_jumpResult_onlyJumps s _⟩

/-! ### What bne, blt and jal commit -/

theorem exec_bne (rs1 rs2 : RegIdx) (off : BitVec 13) (s : State) :
    exec (.bne rs1 rs2 off) s =
      finish s (branchResult s (!samePattern (readReg s rs1) (readReg s rs2)) off) := rfl

theorem exec_blt (rs1 rs2 : RegIdx) (off : BitVec 13) (s : State) :
    exec (.blt rs1 rs2 off) s =
      finish s (branchResult s (lessSigned (readReg s rs1) (readReg s rs2)) off) := rfl

theorem exec_jal (rd : RegIdx) (off : BitVec 21) (s : State) :
    exec (.jal rd off) s = finish s (writeRegResult rd (nextPc s) (relativeTarget s off)) := rfl

theorem not_samePattern_iff (a b : Word) : (!samePattern a b) = true ↔ a ≠ b := by
  rw [Bool.not_eq_true', ← Bool.not_eq_true, samePattern_iff]

/-! ### Their words -/

/-- The branch opcode differs from each of the five that the decoder compares before it. -/
theorem decode_eq_decodeB {w : Word} (hop : opcodeOf w = 0b1100011#7) : decode w = decodeB w := by
  simp [decode, hop]

theorem decodeB_of_funct3_one {w : Word} (hf3 : funct3Of w = 0b001#3) :
    decodeB w = .instr (.bne (rs1Of w) (rs2Of w) (immBOf w)) := by
  simp [decodeB, hf3]

theorem decodeB_of_funct3_four {w : Word} (hf3 : funct3Of w = 0b100#3) :
    decodeB w = .instr (.blt (rs1Of w) (rs2Of w) (immBOf w)) := by
  simp [decodeB, hf3]

theorem decode_of_bne_mask {w : Word} (h : w &&& 0x0000707F#32 = 0x00001063#32) :
    decode w = .instr (.bne (rs1Of w) (rs2Of w) (immBOf w)) := by
  obtain ⟨hop, hf3⟩ := fields_of_mask_funct3 h
  exact (decode_eq_decodeB hop).trans (decodeB_of_funct3_one hf3)

theorem decode_of_blt_mask {w : Word} (h : w &&& 0x0000707F#32 = 0x00004063#32) :
    decode w = .instr (.blt (rs1Of w) (rs2Of w) (immBOf w)) := by
  obtain ⟨hop, hf3⟩ := fields_of_mask_funct3 h
  exact (decode_eq_decodeB hop).trans (decodeB_of_funct3_four hf3)

/-- The opcode alone selects jal's row, the last of the decoder. -/
theorem decode_of_jal_opcode {w : Word} (hop : opcodeOf w = 0b1101111#7) :
    decode w = .instr (.jal (rdOf w) (immJOf w)) := by
  simp [decode, hop]

theorem decode_of_jal_mask {w : Word} (h : w &&& 0x0000007F#32 = 0x0000006F#32) :
    decode w = .instr (.jal (rdOf w) (immJOf w)) :=
  decode_of_jal_opcode (fields_of_mask_opcode h)

/-- Settles O25: opcode and funct3 select bne's row, and its result is a branch, which never halts, on the patterns being
different. -/
theorem bneBranches : Obligations.BneBranches := by
  refine ⟨fun w h => decode_of_bne_mask h, fun s rs1 rs2 off => ?_⟩
  simp only [← not_samePattern_iff]
  exact exec_branch_onlyJumps (exec_bne rs1 rs2 off s)

/-- Settles O26, as O25, with the row of funct3 100 and the comparison of the exact signed readings. -/
theorem bltBranches : Obligations.BltBranches := by
  refine ⟨fun w h => decode_of_blt_mask h, fun s rs1 rs2 off => ?_⟩
  simp only [← lessSigned_iff]
  exact exec_branch_onlyJumps (exec_blt rs1 rs2 off s)

/-- Settles O27: the opcode alone selects jal's row, and the link and the target, both formed from the PC of the state before,
are the whole of what jal commits. -/
theorem jalLinksAndJumps : Obligations.JalLinksAndJumps := by
  refine ⟨fun w h => decode_of_jal_mask h, fun s rd off => ?_⟩
  rw [← nextPc_eq, ← relativeTarget_eq_ofInt s off (by decide)]
  exact ⟨_, exec_jal rd off s, commit_writeRegResult_writesRegister s rd _ _⟩

end Sys2Proof.Proofs
end

