-- ==== Sys2Proof/Proofs/Driver.lean ====
section
/-! The driver's transition table from `Fetching` through `Decoding` (45_driver.md R142, R143): what each row answers, and the
step made of them where the fetched word is outside the table. -/

namespace Sys2Proof.Proofs

open Sys2Proof.Machine Sys2Proof.Safety

/-! ### The entry into `Faulted` -/

theorem enterFaulted_entersFaulted (s : State) (kind : FaultKind) (pos : Nat) (aux : Option Word) :
    EntersFaulted s (enterFaulted s kind pos aux) kind pos aux :=
  ⟨rfl, rfl, rfl, fun _ => rfl, fun _ => rfl, rfl, rfl, rfl⟩

/-- The phase a fault is raised in leaves no mark, so a fault inside a step is one from the step's first state. -/
theorem enterFaulted_of_phase (s : State) (phase : Phase) (kind : FaultKind) (pos : Nat) (aux : Option Word) :
    enterFaulted { s with phase := phase } kind pos aux = enterFaulted s kind pos aux := rfl

/-! ### The rows out of `Fetching` and `Decoding` -/

theorem advance_of_fetching {s : State} (h : s.phase = .fetching) : advance s = .next (fetchStage s) := by
  rw [advance, h]

theorem advance_of_decoding {s : State} {w : Word} (h : s.phase = .decoding w) :
    advance s = .next (decodeStage w s) := by
  rw [advance, h]

theorem decodeStage_of_unknown {w : Word} (h : decode w = .unknownInstruction) (s : State) :
    decodeStage w s = enterFaulted s .unknownInstruction (position s.pc) none := by
  rw [decodeStage, h]

theorem decodeStage_of_instr {w : Word} {i : Instr} (h : decode w = .instr i) (s : State) :
    decodeStage w s = { s with phase := .executing i } := by
  rw [decodeStage, h]

/-! ### The step through a fetched word -/

/-- Once its word is fetched, a step has the rows of `Decoding` and `Executing` left. -/
theorem step_of_fetched {s : State} {w : Word} (hphase : s.phase = .fetching) (hsteps : s.steps ≠ Config.stepCeiling)
    (hfetch : fetchWord s = some w) : step s = finishStep 2 { s with phase := .decoding w } := by
  rw [step, driverStep, advance_of_fetching hphase, fetchStage_word hsteps hfetch]

/-- Decoding a word outside the table ends the step: `Faulted` is no stage inside it. -/
theorem finishStep_of_unknown {n : Nat} {s : State} {w : Word} (hphase : s.phase = .decoding w)
    (hdecode : decode w = .unknownInstruction) :
    finishStep (n + 1) s = .next (enterFaulted s .unknownInstruction (position s.pc) none) := by
  have hinside : s.phase.insideStep = true := by rw [hphase, Phase.insideStep]
  rw [finishStep_inside hinside, advance_of_decoding hphase, decodeStage_of_unknown hdecode]
  exact finishStep_outside rfl

theorem step_of_unknown {s : State} {w : Word} (hphase : s.phase = .fetching) (hsteps : s.steps ≠ Config.stepCeiling)
    (hfetch : fetchWord s = some w) (hdecode : decode w = .unknownInstruction) :
    step s = .next (enterFaulted s .unknownInstruction (position s.pc) none) := by
  rw [step_of_fetched hphase hsteps hfetch, finishStep_of_unknown rfl hdecode, enterFaulted_of_phase]

/-- Settles O35: the fetched word is decoded in the same step, where its being outside the table is the fault of the state the
step began in; a word inside the table is the other answer of `decodeStage`. -/
theorem unknownWordFaults : Obligations.UnknownWordFaults := by
  refine ⟨fun s w hphase hsteps haligned hword hdecode => ?unknown, fun s w i hphase hdecode => ?known⟩
  case unknown =>
    have hfetch : fetchWord s = some w := fetchWord_eq_some.mpr ⟨haligned, hword⟩
    exact ⟨_, step_of_unknown hphase hsteps hfetch hdecode, enterFaulted_entersFaulted s _ _ _⟩
  case known => rw [advance_of_decoding hphase, decodeStage_of_instr hdecode]

end Sys2Proof.Proofs
end

