-- ==== Sys2Proof/Proofs/RoundTrip.lean ====
section
/-! The decoder and the encoder as inverses (30_encoding.md R51 to R68): the row each opcode and funct3 select, what the encoder
gives back for a decoded word, and with them the decode table (R61), the unexamined funct7 (decision D2) and the halt pattern
(decision D3). -/

namespace Sys2Proof.Proofs

open Sys2Proof.Machine

/-! ### The rows not met before, by opcode and funct3 -/

theorem decode_of_add_fields {w : Word} (hop : opcodeOf w = 0b0110011#7) (hf3 : funct3Of w = 0b000#3)
    (hf7 : funct7Of w = 0b0000000#7) : decode w = .instr (.add (rdOf w) (rs1Of w) (rs2Of w)) :=
  (funct7TellsAddFromSub w hop hf3).trans (if_pos hf7)

theorem decode_of_sub_fields {w : Word} (hop : opcodeOf w = 0b0110011#7) (hf3 : funct3Of w = 0b000#3)
    (hf7 : funct7Of w = 0b0100000#7) : decode w = .instr (.sub (rdOf w) (rs1Of w) (rs2Of w)) := by
  rw [decode_eq_decodeR hop, decodeR_of_funct3_zero hf3, hf7]
  rfl

theorem decode_of_slt_fields {w : Word} (hop : opcodeOf w = 0b0110011#7) (hf3 : funct3Of w = 0b010#3) :
    decode w = .instr (.slt (rdOf w) (rs1Of w) (rs2Of w)) := by
  rw [decode_eq_decodeR hop]
  simp [decodeR, hf3]

theorem decode_of_srl_fields {w : Word} (hop : opcodeOf w = 0b0110011#7) (hf3 : funct3Of w = 0b101#3) :
    decode w = .instr (.srl (rdOf w) (rs1Of w) (rs2Of w)) := by
  rw [decode_eq_decodeR hop]
  simp [decodeR, hf3]

theorem decode_of_or_fields {w : Word} (hop : opcodeOf w = 0b0110011#7) (hf3 : funct3Of w = 0b110#3) :
    decode w = .instr (.or (rdOf w) (rs1Of w) (rs2Of w)) := by
  rw [decode_eq_decodeR hop]
  simp [decodeR, hf3]

theorem decode_of_and_fields {w : Word} (hop : opcodeOf w = 0b0110011#7) (hf3 : funct3Of w = 0b111#3) :
    decode w = .instr (.and (rdOf w) (rs1Of w) (rs2Of w)) := by
  rw [decode_eq_decodeR hop]
  simp [decodeR, hf3]

theorem decode_of_lw_fields {w : Word} (hop : opcodeOf w = 0b0000011#7) (hf3 : funct3Of w = 0b010#3) :
    decode w = .instr (.lw (rdOf w) (rs1Of w) (immIOf w)) := by
  simp [decode, hop, hf3]

theorem decode_of_jalr_fields {w : Word} (hop : opcodeOf w = 0b1100111#7) (hf3 : funct3Of w = 0b000#3) :
    decode w = .instr (.jalr (rdOf w) (rs1Of w) (immIOf w)) := by
  simp [decode, hop, hf3]

theorem decode_of_sw_fields {w : Word} (hop : opcodeOf w = 0b0100011#7) (hf3 : funct3Of w = 0b010#3) :
    decode w = .instr (.sw (rs1Of w) (rs2Of w) (immSOf w)) := by
  simp [decode, hop, hf3]

theorem decode_of_beq_fields {w : Word} (hop : opcodeOf w = 0b1100011#7) (hf3 : funct3Of w = 0b000#3) :
    decode w = .instr (.beq (rs1Of w) (rs2Of w) (immBOf w)) := by
  rw [decode_eq_decodeB hop, decodeB, if_pos hf3]

/-! ### The same rows by match and mask -/

theorem decode_of_slt_mask {w : Word} (h : w &&& 0x0000707F#32 = 0x00002033#32) :
    decode w = .instr (.slt (rdOf w) (rs1Of w) (rs2Of w)) := by
  obtain ⟨hop, hf3⟩ := fields_of_mask_funct3 h
  exact decode_of_slt_fields hop hf3

theorem decode_of_srl_mask {w : Word} (h : w &&& 0x0000707F#32 = 0x00005033#32) :
    decode w = .instr (.srl (rdOf w) (rs1Of w) (rs2Of w)) := by
  obtain ⟨hop, hf3⟩ := fields_of_mask_funct3 h
  exact decode_of_srl_fields hop hf3

theorem decode_of_or_mask {w : Word} (h : w &&& 0x0000707F#32 = 0x00006033#32) :
    decode w = .instr (.or (rdOf w) (rs1Of w) (rs2Of w)) := by
  obtain ⟨hop, hf3⟩ := fields_of_mask_funct3 h
  exact decode_of_or_fields hop hf3

theorem decode_of_and_mask {w : Word} (h : w &&& 0x0000707F#32 = 0x00007033#32) :
    decode w = .instr (.and (rdOf w) (rs1Of w) (rs2Of w)) := by
  obtain ⟨hop, hf3⟩ := fields_of_mask_funct3 h
  exact decode_of_and_fields hop hf3

theorem decode_of_lw_mask {w : Word} (h : w &&& 0x0000707F#32 = 0x00002003#32) :
    decode w = .instr (.lw (rdOf w) (rs1Of w) (immIOf w)) := by
  obtain ⟨hop, hf3⟩ := fields_of_mask_funct3 h
  exact decode_of_lw_fields hop hf3

theorem decode_of_jalr_mask {w : Word} (h : w &&& 0x0000707F#32 = 0x00000067#32) :
    decode w = .instr (.jalr (rdOf w) (rs1Of w) (immIOf w)) := by
  obtain ⟨hop, hf3⟩ := fields_of_mask_funct3 h
  exact decode_of_jalr_fields hop hf3

theorem decode_of_sw_mask {w : Word} (h : w &&& 0x0000707F#32 = 0x00002023#32) :
    decode w = .instr (.sw (rs1Of w) (rs2Of w) (immSOf w)) := by
  obtain ⟨hop, hf3⟩ := fields_of_mask_funct3 h
  exact decode_of_sw_fields hop hf3

theorem decode_of_beq_mask {w : Word} (h : w &&& 0x0000707F#32 = 0x00000063#32) :
    decode w = .instr (.beq (rs1Of w) (rs2Of w) (immBOf w)) := by
  obtain ⟨hop, hf3⟩ := fields_of_mask_funct3 h
  exact decode_of_beq_fields hop hf3

/-! ### Decoding an encoded instruction -/

/-- Settles O4: opcode, funct3 and, for add and sub, funct7 of the encoded word select its instruction's row, and the operand
fields read back what the format has put there; well-formedness is the unstored bit 0 of a B or J offset. -/
theorem encodedInstructionDecodesToItself : Obligations.EncodedInstructionDecodesToItself := by
  intro i hwf
  cases i with
  | add rd rs1 rs2 =>
    rw [encode, decode_of_add_fields (opcodeOf_encodeR ..) (funct3Of_encodeR ..) (funct7Of_encodeR ..), rdOf_encodeR,
      rs1Of_encodeR, rs2Of_encodeR]
  | sub rd rs1 rs2 =>
    rw [encode, decode_of_sub_fields (opcodeOf_encodeR ..) (funct3Of_encodeR ..) (funct7Of_encodeR ..), rdOf_encodeR,
      rs1Of_encodeR, rs2Of_encodeR]
  | slt rd rs1 rs2 =>
    rw [encode, decode_of_slt_fields (opcodeOf_encodeR ..) (funct3Of_encodeR ..), rdOf_encodeR, rs1Of_encodeR,
      rs2Of_encodeR]
  | srl rd rs1 rs2 =>
    rw [encode, decode_of_srl_fields (opcodeOf_encodeR ..) (funct3Of_encodeR ..), rdOf_encodeR, rs1Of_encodeR,
      rs2Of_encodeR]
  | or rd rs1 rs2 =>
    rw [encode, decode_of_or_fields (opcodeOf_encodeR ..) (funct3Of_encodeR ..), rdOf_encodeR, rs1Of_encodeR,
      rs2Of_encodeR]
  | and rd rs1 rs2 =>
    rw [encode, decode_of_and_fields (opcodeOf_encodeR ..) (funct3Of_encodeR ..), rdOf_encodeR, rs1Of_encodeR,
      rs2Of_encodeR]
  | addi rd rs1 imm =>
    rw [encode, decode_of_addi_fields (opcodeOf_encodeI ..) (funct3Of_encodeI ..), rdOf_encodeI, rs1Of_encodeI,
      immIOf_encodeI]
  | lw rd rs1 imm =>
    rw [encode, decode_of_lw_fields (opcodeOf_encodeI ..) (funct3Of_encodeI ..), rdOf_encodeI, rs1Of_encodeI,
      immIOf_encodeI]
  | jalr rd rs1 imm =>
    rw [encode, decode_of_jalr_fields (opcodeOf_encodeI ..) (funct3Of_encodeI ..), rdOf_encodeI, rs1Of_encodeI,
      immIOf_encodeI]
  | sw rs1 rs2 imm =>
    rw [encode, decode_of_sw_fields (opcodeOf_encodeS ..) (funct3Of_encodeS ..), rs1Of_encodeS, rs2Of_encodeS,
      immSOf_encodeS]
  | beq rs1 rs2 off =>
    rw [encode, decode_of_beq_fields (opcodeOf_encodeB ..) (funct3Of_encodeB ..), rs1Of_encodeB, rs2Of_encodeB,
      immBOf_encodeB _ _ _ _ _ (by simpa [WellFormed, Instr.wellFormed] using hwf)]
  | bne rs1 rs2 off =>
    rw [encode, decode_eq_decodeB (opcodeOf_encodeB ..), decodeB_of_funct3_one (funct3Of_encodeB ..), rs1Of_encodeB,
      rs2Of_encodeB, immBOf_encodeB _ _ _ _ _ (by simpa [WellFormed, Instr.wellFormed] using hwf)]
  | blt rs1 rs2 off =>
    rw [encode, decode_eq_decodeB (opcodeOf_encodeB ..), decodeB_of_funct3_four (funct3Of_encodeB ..), rs1Of_encodeB,
      rs2Of_encodeB, immBOf_encodeB _ _ _ _ _ (by simpa [WellFormed, Instr.wellFormed] using hwf)]
  | jal rd off =>
    rw [encode, decode_of_jal_opcode (opcodeOf_encodeJ ..), rdOf_encodeJ,
      immJOf_encodeJ _ _ _ (by simpa [WellFormed, Instr.wellFormed] using hwf)]

/-! ### Encoding a decoded word -/

/-- The six fields of the R format are the whole word. -/
theorem encodeR_fields (w : Word) :
    encodeR (funct7Of w) (rs2Of w) (rs1Of w) (funct3Of w) (rdOf w) (opcodeOf w) = w := by
  refine BitVec.eq_of_getLsbD_eq fun k hk => ?_
  simp only [encodeR, funct7Of, rs2Of, rs1Of, funct3Of, rdOf, opcodeOf, BitVec.getLsbD_extractLsb',
    BitVec.getLsbD_append]
  interval_cases k <;> simp

theorem encodeI_fields (w : Word) : encodeI (immIOf w) (rs1Of w) (funct3Of w) (rdOf w) (opcodeOf w) = w := by
  refine BitVec.eq_of_getLsbD_eq fun k hk => ?_
  simp only [encodeI, immIOf, rs1Of, funct3Of, rdOf, opcodeOf, BitVec.getLsbD_extractLsb', BitVec.getLsbD_append]
  interval_cases k <;> simp

theorem encodeS_fields (w : Word) : encodeS (immSOf w) (rs2Of w) (rs1Of w) (funct3Of w) (opcodeOf w) = w := by
  refine BitVec.eq_of_getLsbD_eq fun k hk => ?_
  simp only [encodeS, immSOf, rs2Of, rs1Of, funct3Of, opcodeOf, BitVec.getLsbD_extractLsb', BitVec.getLsbD_append]
  interval_cases k <;> simp

theorem encodeB_fields (w : Word) : encodeB (immBOf w) (rs2Of w) (rs1Of w) (funct3Of w) (opcodeOf w) = w := by
  refine BitVec.eq_of_getLsbD_eq fun k hk => ?_
  simp only [encodeB, immBOf, rs2Of, rs1Of, funct3Of, opcodeOf, BitVec.getLsbD_extractLsb', BitVec.getLsbD_append]
  interval_cases k <;> simp

theorem encodeJ_fields (w : Word) : encodeJ (immJOf w) (rdOf w) (opcodeOf w) = w := by
  refine BitVec.eq_of_getLsbD_eq fun k hk => ?_
  simp only [encodeJ, immJOf, rdOf, opcodeOf, BitVec.getLsbD_extractLsb', BitVec.getLsbD_append]
  interval_cases k <;> simp

/-- funct7 stands above bit 24, and replacing it leaves the bits below. -/
theorem getLsbD_encodeR_below_funct7 (w : Word) (f7 : BitVec 7) {k : Nat} (hk : k < 25) :
    (encodeR f7 (rs2Of w) (rs1Of w) (funct3Of w) (rdOf w) (opcodeOf w)).getLsbD k = w.getLsbD k := by
  conv_rhs => rw [← encodeR_fields w]
  simp only [encodeR, BitVec.getLsbD_append]
  interval_cases k <;> simp

/-- The word of a decoded instruction: the decoded word itself, or, where funct7 is not examined, a word that agrees with it
below funct7. -/
theorem encode_of_decode {w : Word} {i : Instr} (h : decode w = .instr i) :
    encode i = w ∨
      i.mnemonic ∈ ["slt", "srl", "or", "and"] ∧ ∀ k, k < 25 → (encode i).getLsbD k = w.getLsbD k := by
  rcases decode_cases w i h with ⟨hop, hf3, hf7, rfl⟩ | ⟨hop, hf3, hf7, rfl⟩ | ⟨hop, hf3, rfl⟩ | ⟨hop, hf3, rfl⟩ |
    ⟨hop, hf3, rfl⟩ | ⟨hop, hf3, rfl⟩ | ⟨hop, hf3, rfl⟩ | ⟨hop, hf3, rfl⟩ | ⟨hop, hf3, rfl⟩ | ⟨hop, hf3, rfl⟩ |
    ⟨hop, hf3, rfl⟩ | ⟨hop, hf3, rfl⟩ | ⟨hop, hf3, rfl⟩ | ⟨hop, rfl⟩
  · exact .inl (by simpa [encode, hop, hf3, hf7] using encodeR_fields w)
  · exact .inl (by simpa [encode, hop, hf3, hf7] using encodeR_fields w)
  · exact .inr ⟨by simp [Instr.mnemonic], fun k hk =>
      by simpa [encode, hop, hf3] using getLsbD_encodeR_below_funct7 w 0 hk⟩
  · exact .inr ⟨by simp [Instr.mnemonic], fun k hk =>
      by simpa [encode, hop, hf3] using getLsbD_encodeR_below_funct7 w 0 hk⟩
  · exact .inr ⟨by simp [Instr.mnemonic], fun k hk =>
      by simpa [encode, hop, hf3] using getLsbD_encodeR_below_funct7 w 0 hk⟩
  · exact .inr ⟨by simp [Instr.mnemonic], fun k hk =>
      by simpa [encode, hop, hf3] using getLsbD_encodeR_below_funct7 w 0 hk⟩
  · exact .inl (by simpa [encode, hop, hf3] using encodeI_fields w)
  · exact .inl (by simpa [encode, hop, hf3] using encodeI_fields w)
  · exact .inl (by simpa [encode, hop, hf3] using encodeI_fields w)
  · exact .inl (by simpa [encode, hop, hf3] using encodeS_fields w)
  · exact .inl (by simpa [encode, hop, hf3] using encodeB_fields w)
  · exact .inl (by simpa [encode, hop, hf3] using encodeB_fields w)
  · exact .inl (by simpa [encode, hop, hf3] using encodeB_fields w)
  · exact .inl (by simpa [encode, hop] using encodeJ_fields w)

/-- Settles O5: a decoded instruction is well formed, and its word is the decoded one but for an unexamined funct7. -/
theorem decodedInstructionEncodesToItsWord : Obligations.DecodedInstructionEncodesToItsWord := by
  intro w i h
  refine ⟨decode_wellFormed h, fun k _ hexamined => ?_⟩
  obtain heq | ⟨hmn, hbits⟩ := encode_of_decode h
  · rw [heq]
  · exact hbits k (hexamined.resolve_right fun hnot => hnot hmn)

/-! ### The decode table -/

/-- Opcode and funct3 decide what the mask of a row keyed on them leaves. -/
theorem mask_funct3_of_fields {w p : Word} {op : BitVec 7} {f3 : BitVec 3} (hop : opcodeOf w = op)
    (hf3 : funct3Of w = f3) (hp : 0#17 ++ f3 ++ 0#5 ++ op = p) : w &&& 0x0000707F#32 = p := by
  rw [and_mask_funct3, hop, hf3, hp]

theorem mask_funct7_of_fields {w p : Word} {op : BitVec 7} {f3 : BitVec 3} {f7 : BitVec 7} (hop : opcodeOf w = op)
    (hf3 : funct3Of w = f3) (hf7 : funct7Of w = f7) (hp : f7 ++ 0#10 ++ f3 ++ 0#5 ++ op = p) :
    w &&& 0xFE00707F#32 = p := by
  rw [and_mask_funct7, hop, hf3, hf7, hp]

theorem mask_opcode_of_field {w p : Word} {op : BitVec 7} (hop : opcodeOf w = op) (hp : 0#25 ++ op = p) :
    w &&& 0x0000007F#32 = p := by
  rw [and_mask_opcode, hop, hp]

/-- The word of a decoded instruction selects the row of its mnemonic and type. -/
theorem row_of_decode {w : Word} {i : Instr} (h : decode w = .instr i) :
    ∃ r ∈ decodeTable, r.selects w = true ∧ (r.mnemonic, r.format) = (i.mnemonic, i.format) := by
  rcases decode_cases w i h with ⟨hop, hf3, hf7, rfl⟩ | ⟨hop, hf3, hf7, rfl⟩ | ⟨hop, hf3, rfl⟩ | ⟨hop, hf3, rfl⟩ |
    ⟨hop, hf3, rfl⟩ | ⟨hop, hf3, rfl⟩ | ⟨hop, hf3, rfl⟩ | ⟨hop, hf3, rfl⟩ | ⟨hop, hf3, rfl⟩ | ⟨hop, hf3, rfl⟩ |
    ⟨hop, hf3, rfl⟩ | ⟨hop, hf3, rfl⟩ | ⟨hop, hf3, rfl⟩ | ⟨hop, rfl⟩
  · exact ⟨decodeTable[0], by decide, decide_eq_true (mask_funct7_of_fields hop hf3 hf7 rfl), rfl⟩
  · exact ⟨decodeTable[1], by decide, decide_eq_true (mask_funct7_of_fields hop hf3 hf7 rfl), rfl⟩
  · exact ⟨decodeTable[2], by decide, decide_eq_true (mask_funct3_of_fields hop hf3 rfl), rfl⟩
  · exact ⟨decodeTable[3], by decide, decide_eq_true (mask_funct3_of_fields hop hf3 rfl), rfl⟩
  · exact ⟨decodeTable[4], by decide, decide_eq_true (mask_funct3_of_fields hop hf3 rfl), rfl⟩
  · exact ⟨decodeTable[5], by decide, decide_eq_true (mask_funct3_of_fields hop hf3 rfl), rfl⟩
  · exact ⟨decodeTable[6], by decide, decide_eq_true (mask_funct3_of_fields hop hf3 rfl), rfl⟩
  · exact ⟨decodeTable[7], by decide, decide_eq_true (mask_funct3_of_fields hop hf3 rfl), rfl⟩
  · exact ⟨decodeTable[8], by decide, decide_eq_true (mask_funct3_of_fields hop hf3 rfl), rfl⟩
  · exact ⟨decodeTable[9], by decide, decide_eq_true (mask_funct3_of_fields hop hf3 rfl), rfl⟩
  · exact ⟨decodeTable[10], by decide, decide_eq_true (mask_funct3_of_fields hop hf3 rfl), rfl⟩
  · exact ⟨decodeTable[11], by decide, decide_eq_true (mask_funct3_of_fields hop hf3 rfl), rfl⟩
  · exact ⟨decodeTable[12], by decide, decide_eq_true (mask_funct3_of_fields hop hf3 rfl), rfl⟩
  · exact ⟨decodeTable[13], by decide, decide_eq_true (mask_opcode_of_field hop rfl), rfl⟩

/-- A word decodes to the mnemonic and type of every row it selects. -/
theorem decode_of_selects {r : Row} (hr : r ∈ decodeTable) {w : Word} (h : r.selects w = true) :
    ∃ i, decode w = .instr i ∧ (r.mnemonic, r.format) = (i.mnemonic, i.format) := by
  replace h := of_decide_eq_true h
  fin_cases hr
  · exact ⟨_, decode_of_add_mask h, rfl⟩
  · exact ⟨_, decode_of_sub_mask h, rfl⟩
  · exact ⟨_, decode_of_slt_mask h, rfl⟩
  · exact ⟨_, decode_of_srl_mask h, rfl⟩
  · exact ⟨_, decode_of_or_mask h, rfl⟩
  · exact ⟨_, decode_of_and_mask h, rfl⟩
  · exact ⟨_, decode_of_addi_mask h, rfl⟩
  · exact ⟨_, decode_of_lw_mask h, rfl⟩
  · exact ⟨_, decode_of_jalr_mask h, rfl⟩
  · exact ⟨_, decode_of_sw_mask h, rfl⟩
  · exact ⟨_, decode_of_beq_mask h, rfl⟩
  · exact ⟨_, decode_of_bne_mask h, rfl⟩
  · exact ⟨_, decode_of_blt_mask h, rfl⟩
  · exact ⟨_, decode_of_jal_mask h, rfl⟩

/-- The mnemonic is a key of the decode table. -/
theorem row_eq_of_mnemonic_eq : ∀ r₁ ∈ decodeTable, ∀ r₂ ∈ decodeTable, r₁.mnemonic = r₂.mnemonic → r₁ = r₂ := by
  decide

/-- Settles O2: the row `find?` answers is one the decoder agrees with, and where it answers none the decoder cannot have
answered an instruction, as that has a row; two selected rows have the mnemonic of the one decoded instruction. -/
theorem decodeIsMatchMaskTable : Obligations.DecodeIsMatchMaskTable := by
  intro w
  refine ⟨?answer, fun r₁ hr₁ r₂ hr₂ h₁ h₂ => ?unique⟩
  case answer =>
    cases hfind : decodeTable.find? fun r => r.selects w with
    | some r =>
      have hselects : r.selects w = true := List.find?_some (p := fun r : Row => r.selects w) hfind
      obtain ⟨i, hi, hsame⟩ := decode_of_selects (List.mem_of_find?_eq_some hfind) hselects
      rw [hi, Option.map_some, hsame]
    | none =>
      cases hdec : decode w with
      | unknownInstruction => rfl
      | instr i =>
        obtain ⟨r, hr, hselects, -⟩ := row_of_decode hdec
        exact absurd hselects (List.find?_eq_none.mp hfind r hr)
  case unique =>
    obtain ⟨i, hi, hsame₁⟩ := decode_of_selects hr₁ h₁
    obtain ⟨i', hi', hsame₂⟩ := decode_of_selects hr₂ h₂
    obtain rfl : i = i' := Decoded.instr.inj (hi.symm.trans hi')
    exact row_eq_of_mnemonic_eq r₁ hr₁ r₂ hr₂ (congrArg Prod.fst (hsame₁.trans hsame₂.symm))

/-! ### The unexamined funct7 (decision D2) -/

/-- Two words that agree below bit 25 agree in every field that ends there. -/
theorem extractLsb'_congr_below {w w' : Word} (h : w'.extractLsb' 0 25 = w.extractLsb' 0 25) {start len : Nat}
    (hle : start + len ≤ 25) : w'.extractLsb' start len = w.extractLsb' start len := by
  refine BitVec.eq_of_getLsbD_eq fun k hk => ?_
  have hbit := congrArg (fun v => v.getLsbD (start + k)) h
  simpa [BitVec.getLsbD_extractLsb', hk, show start + k < 25 by omega] using hbit

/-- Outside funct3 000 the R-type column looks only at fields below funct7. -/
theorem decodeR_congr_below {w w' : Word} (h : w'.extractLsb' 0 25 = w.extractLsb' 0 25) (hf3 : funct3Of w ≠ 0b000#3) :
    decodeR w' = decodeR w := by
  have hfunct3 : funct3Of w' = funct3Of w := extractLsb'_congr_below h (by decide)
  have hrd : rdOf w' = rdOf w := extractLsb'_congr_below h (by decide)
  have hrs1 : rs1Of w' = rs1Of w := extractLsb'_congr_below h (by decide)
  have hrs2 : rs2Of w' = rs2Of w := extractLsb'_congr_below h (by decide)
  simp only [decodeR, hfunct3, hrd, hrs1, hrs2, if_neg hf3]

/-- Settles O7: both words are decoded by the R-type column, which under these funct3 looks at nothing above bit 24 and has a
row for each. -/
theorem funct7NotExaminedOtherwise : Obligations.Funct7NotExaminedOtherwise := by
  intro w w' hop hf3 hbelow
  have hop' : opcodeOf w' = 0b0110011#7 := (extractLsb'_congr_below hbelow (by decide)).trans hop
  have hne : funct3Of w ≠ 0b000#3 := by
    intro h
    rcases hf3 with hf3 | hf3 | hf3 | hf3 <;> exact absurd (h.symm.trans hf3) (by decide)
  refine ⟨by rw [decode_eq_decodeR hop', decode_eq_decodeR hop, decodeR_congr_below hbelow hne], ?_⟩
  rcases hf3 with hf3 | hf3 | hf3 | hf3
  · rw [decode_of_slt_fields hop hf3]; exact nofun
  · rw [decode_of_srl_fields hop hf3]; exact nofun
  · rw [decode_of_or_fields hop hf3]; exact nofun
  · rw [decode_of_and_fields hop hf3]; exact nofun

/-! ### The halt pattern (decision D3) -/

theorem isHalt_iff_decode (w : Word) : isHalt w = true ↔ ∃ r, decode w = .instr (.beq r r 0) := by
  unfold isHalt
  split
  case h_1 rs1 rs2 off hdec =>
    simp only [hdec, Bool.and_eq_true, decide_eq_true_eq, Decoded.instr.injEq, Instr.beq.injEq]
    exact ⟨fun ⟨hrs, hoff⟩ => ⟨rs1, rfl, hrs.symm, hoff⟩, fun ⟨r, h1, h2, h3⟩ => ⟨h1.trans h2.symm, h3⟩⟩
  case h_2 hnot => exact ⟨nofun, fun ⟨r, h⟩ => absurd h (hnot r r 0)⟩

/-- A beq's funct7 is part of its offset, so its word is the only one that decodes to it. -/
theorem isHalt_iff_encode (w : Word) : isHalt w = true ↔ ∃ r, w = encode (.beq r r 0) := by
  rw [isHalt_iff_decode]
  constructor
  · rintro ⟨r, h⟩
    obtain heq | ⟨hmn, -⟩ := encode_of_decode h
    · exact ⟨r, heq.symm⟩
    · simp [Instr.mnemonic] at hmn
  · rintro ⟨r, rfl⟩
    exact ⟨r, encodedInstructionDecodesToItself _ rfl⟩

/-- The halt pattern's word in the fields of the R format: the offset 0 fills those of funct7 and rd. -/
theorem encode_halt_eq_encodeR (r : RegIdx) :
    encode (.beq r r 0) = encodeR 0b0000000#7 r r 0b000#3 0b00000#5 0b1100011#7 := by
  refine BitVec.eq_of_getLsbD_eq fun k hk => ?_
  simp only [encode, encodeB, encodeR, BitVec.getLsbD_append]
  interval_cases k <;> simp

/-- The mask of the halt pattern keeps all but the two register fields. -/
theorem and_mask_halt (w : Word) :
    w &&& 0xFE007FFF#32 = encodeR (funct7Of w) 0b00000#5 0b00000#5 (funct3Of w) (rdOf w) (opcodeOf w) := by
  refine BitVec.eq_of_getLsbD_eq fun k hk => ?_
  simp only [encodeR, funct7Of, funct3Of, rdOf, opcodeOf, BitVec.getLsbD_and, BitVec.getLsbD_extractLsb',
    BitVec.getLsbD_append]
  interval_cases k <;> simp

theorem eq_encode_halt_iff_mask (w : Word) :
    (∃ r, w = encode (.beq r r 0)) ↔ w &&& 0xFE007FFF#32 = 0x00000063#32 ∧ rs1Of w = rs2Of w := by
  constructor
  · rintro ⟨r, rfl⟩
    rw [encode_halt_eq_encodeR, and_mask_halt, rs1Of_encodeR, rs2Of_encodeR, funct7Of_encodeR, funct3Of_encodeR,
      rdOf_encodeR, opcodeOf_encodeR]
    exact ⟨rfl, rfl⟩
  · rintro ⟨hmask, hrs⟩
    rw [and_mask_halt] at hmask
    have hf7 := congrArg funct7Of hmask
    have hf3 := congrArg funct3Of hmask
    have hrd := congrArg rdOf hmask
    have hop := congrArg opcodeOf hmask
    simp only [funct7Of_encodeR, funct3Of_encodeR, rdOf_encodeR, opcodeOf_encodeR] at hf7 hf3 hrd hop
    refine ⟨rs2Of w, ?_⟩
    rw [encode_halt_eq_encodeR]
    conv_lhs => rw [← encodeR_fields w, hf7, hf3, hrd, hop, hrs]
    rfl

theorem encode_halt_eq_ofNat (r : RegIdx) :
    encode (.beq r r 0) = BitVec.ofNat 32 (0x00000063 + r.toNat * 0x00108000) := by
  apply BitVec.eq_of_toNat_eq
  have := r.isLt
  rw [encode_halt_eq_encodeR]
  simp only [encodeR, toNat_append_eq_add, BitVec.toNat_ofNat]
  omega

theorem eq_encode_halt_iff_ofNat (w : Word) :
    (∃ r, w = encode (.beq r r 0)) ↔ ∃ r, r < 32 ∧ w = BitVec.ofNat 32 (0x00000063 + r * 0x00108000) := by
  constructor
  · rintro ⟨r, rfl⟩
    exact ⟨r.toNat, r.isLt, encode_halt_eq_ofNat r⟩
  · rintro ⟨r, hr, rfl⟩
    refine ⟨BitVec.ofNat 5 r, ?_⟩
    rw [encode_halt_eq_ofNat, BitVec.toNat_ofNat, Nat.mod_eq_of_lt hr]

/-- Settles O8: the halt words are the words of `beq r, r, 0`, seen through the mask and as numbers. -/
theorem haltPatternWords : Obligations.HaltPatternWords := fun w =>
  ⟨isHalt_iff_decode w, (isHalt_iff_encode w).trans (eq_encode_halt_iff_mask w),
    (isHalt_iff_encode w).trans (eq_encode_halt_iff_ofNat w)⟩

/-! ### The spec's own words -/

/-- Settles O1, word by word: the decoder computes. -/
theorem specWordsDecode : Obligations.SpecWordsDecode := by
  refine ⟨fun p hp => ?inTable, fun w hw => ?outside⟩
  case inTable => fin_cases hp <;> rfl
  case outside => fin_cases hw <;> rfl

end Sys2Proof.Proofs
end

