-- ==== Sys2Proof/Proofs/AluComparison.lean ====
section
/-! The register ALU instructions slt, srl, or and and (40_alu_register.md R85 to R88). -/

namespace Sys2Proof.Proofs

open Sys2Proof.Machine Sys2Proof.Safety

/-! ### Their results in the library's arithmetic -/

theorem sltWord_eq_ite (a b : Word) : sltWord a b = if a.toInt < b.toInt then 1#32 else 0#32 := by
  simp only [sltWord, lessSigned_iff]

/-- A logical shift right by sh is the quotient by 2^sh. -/
theorem srlWord_eq_ofNat (a b : Word) : srlWord a b = BitVec.ofNat 32 (a.toNat / 2 ^ (b.toNat % 32)) := by
  apply BitVec.eq_of_toNat_eq
  have hlt : a.toNat / 2 ^ (b.toNat % 32) < 2 ^ 32 := lt_of_le_of_lt (Nat.div_le_self ..) a.isLt
  rw [srlWord, unsigned_eq_toNat, BitVec.toNat_ushiftRight, Nat.shiftRight_eq_div_pow, BitVec.toNat_ofNat,
    Nat.mod_eq_of_lt hlt]

theorem exec_slt (rd rs1 rs2 : RegIdx) (s : State) :
    exec (.slt rd rs1 rs2) s =
      finish s (writeRegResult rd (sltWord (readReg s rs1) (readReg s rs2)) (nextPc s)) := rfl

theorem exec_srl (rd rs1 rs2 : RegIdx) (s : State) :
    exec (.srl rd rs1 rs2) s =
      finish s (writeRegResult rd (srlWord (readReg s rs1) (readReg s rs2)) (nextPc s)) := rfl

theorem exec_or (rd rs1 rs2 : RegIdx) (s : State) :
    exec (.or rd rs1 rs2) s = finish s (writeRegResult rd (readReg s rs1 ||| readReg s rs2) (nextPc s)) := rfl

theorem exec_and (rd rs1 rs2 : RegIdx) (s : State) :
    exec (.and rd rs1 rs2) s = finish s (writeRegResult rd (readReg s rs1 &&& readReg s rs2) (nextPc s)) := rfl

/-- Settles O14: opcode and funct3 select slt's row, and the comparator's word, written at the next sequential PC, is the whole
of what slt commits. -/
theorem sltWritesSignedComparison : Obligations.SltWritesSignedComparison := by
  refine ⟨fun w h => decode_of_slt_mask h, fun s rd rs1 rs2 => ?_⟩
  rw [← sltWord_eq_ite]
  exact exec_writesRegister (exec_slt rd rs1 rs2 s)

/-- Settles O15, as O14, with the shifter's quotient. -/
theorem srlShiftsByLowFiveBits : Obligations.SrlShiftsByLowFiveBits := by
  refine ⟨fun w h => decode_of_srl_mask h, fun s rd rs1 rs2 => ?_⟩
  rw [← srlWord_eq_ofNat]
  exact exec_writesRegister (exec_srl rd rs1 rs2 s)

/-- Settles O16, as O14, with the disjunction of the two patterns. -/
theorem orIsBitwise : Obligations.OrIsBitwise := by
  refine ⟨fun w h => decode_of_or_mask h, fun s rd rs1 rs2 => ?_⟩
  obtain ⟨t, hexec, hwrites⟩ := exec_writesRegister (exec_or rd rs1 rs2 s)
  exact ⟨t, _, hexec, fun k _ => BitVec.getLsbD_or, hwrites⟩

/-- Settles O17, as O14, with the conjunction of the two patterns. -/
theorem andIsBitwise : Obligations.AndIsBitwise := by
  refine ⟨fun w h => decode_of_and_mask h, fun s rd rs1 rs2 => ?_⟩
  obtain ⟨t, hexec, hwrites⟩ := exec_writesRegister (exec_and rd rs1 rs2 s)
  exact ⟨t, _, hexec, fun k _ => BitVec.getLsbD_and, hwrites⟩

end Sys2Proof.Proofs
end

