-- ==== Sys2Proof/Proofs/LoadStoreResults.lean ====
section
/-! lw and sw at a slot and beside one (42_load_store.md R105 to R107). -/

namespace Sys2Proof.Proofs

open Sys2Proof.Machine Sys2Proof.Safety

theorem cellGet_of_not_listed {m : Memory} {a : Nat} (h : ∀ c ∈ m, c.1 ≠ a) : cellGet m a = unlistedWord := by
  induction m with
  | nil => rfl
  | cons c m ih =>
    obtain ⟨hc, hm⟩ := List.forall_mem_cons.mp h
    rw [cellGet, if_neg (Ne.symm hc), ih hm, ite_self]

theorem memRead_of_isSlot (m : Memory) {a : Word} (ha : IsSlot a) : memRead m a = some (cellGet m a.toNat) := by
  rw [memRead_eq, if_pos ((resolve_isSome_iff_isSlot a).mpr ha)]

theorem memRead_eq_none_iff (m : Memory) (a : Word) : memRead m a = none ↔ ¬ IsSlot a := by
  rw [← memRead_isSome_iff_isSlot m a, Option.not_isSome_iff_eq_none]

theorem memWrite_eq_none_iff (m : Memory) (a v : Word) : memWrite m a v = none ↔ ¬ IsSlot a := by
  rw [← memWrite_isSome_iff_isSlot m a v, Option.not_isSome_iff_eq_none]

/-- The commit of an access beside the slots. -/
theorem commit_outOfRange_entersFaulted (s : State) (a : Word) :
    EntersFaulted s (commit s (.outOfRange a)) .outOfRangeAccess (position s.pc) (some a) :=
  enterFaulted_entersFaulted s .outOfRangeAccess (position s.pc) (some a)

theorem exec_lw_entersFaulted {s : State} {rd rs1 : RegIdx} {imm : BitVec 12}
    (h : ¬ IsSlot (effectiveAddress s rs1 imm)) :
    ∃ t, exec (.lw rd rs1 imm) s = .next t ∧
      EntersFaulted s t .outOfRangeAccess (position s.pc) (some (effectiveAddress s rs1 imm)) := by
  refine ⟨_, exec_lw rd rs1 imm s, ?_⟩
  rw [loadResult, (memRead_eq_none_iff s.mem _).mpr h]
  exact commit_outOfRange_entersFaulted s _

theorem exec_sw_entersFaulted {s : State} {rs1 rs2 : RegIdx} {imm : BitVec 12}
    (h : ¬ IsSlot (effectiveAddress s rs1 imm)) :
    ∃ t, exec (.sw rs1 rs2 imm) s = .next t ∧
      EntersFaulted s t .outOfRangeAccess (position s.pc) (some (effectiveAddress s rs1 imm)) := by
  refine ⟨_, exec_sw rs1 rs2 imm s, ?_⟩
  rw [storeResult, (memWrite_eq_none_iff s.mem _ _).mpr h]
  exact commit_outOfRange_entersFaulted s _

theorem exec_sw_storesWord {s : State} {rs1 rs2 : RegIdx} {imm : BitVec 12} (hwf : Memory.wf s.mem)
    (h : IsSlot (effectiveAddress s rs1 imm)) :
    ∃ t, exec (.sw rs1 rs2 imm) s = .next t ∧
      StoresWord s t (effectiveAddress s rs1 imm) (readReg s rs2) (s.pc + 4#32) := by
  obtain ⟨m, hm⟩ := Option.isSome_iff_exists.mp ((memWrite_isSome_iff_isSlot s.mem _ (readReg s rs2)).mpr h)
  refine ⟨_, exec_sw rs1 rs2 imm s, ?_⟩
  rw [← nextPc_eq, commit_store, hm]
  refine ⟨fun _ => rfl, ⟨?stored, fun b hb => ?kept⟩, countStep_committed s s.regs m (nextPc s) .fetching⟩
  case stored => exact (memRead_memWrite hwf hm _).trans (if_pos rfl)
  case kept => exact (memRead_memWrite hwf hm b).trans (if_neg hb)

/-- Settles O20: at a slot the read answers its cell, which holds 0 where nothing is listed, and the lw commits it; beside the
slots the read answers none, whatever rd is. -/
theorem lwLoadsOrFaults : Obligations.LwLoadsOrFaults := by
  refine ⟨fun w h => decode_of_lw_mask h, fun s rd rs1 imm => ?_⟩
  rw [← effectiveAddress_eq_ofInt]
  refine ⟨fun hslot => ?loads, fun hnot => exec_lw_entersFaulted hnot⟩
  case loads =>
    have hread := memRead_of_isSlot s.mem hslot
    obtain ⟨t, hexec, hwrites⟩ := exec_lw_writesRegister (rd := rd) hread
    exact ⟨t, _, hread, cellGet_of_not_listed, hexec, hwrites⟩

/-- Settles O21: at a slot the write succeeds and a canonical memory shows it there only; beside the slots it does not
succeed. -/
theorem swStoresOrFaults : Obligations.SwStoresOrFaults := by
  refine ⟨fun w h => decode_of_sw_mask h, fun s rs1 rs2 imm hwf => ?_⟩
  rw [← effectiveAddress_eq_ofInt]
  exact ⟨fun hslot => exec_sw_storesWord hwf hslot, fun hnot => exec_sw_entersFaulted hnot⟩

end Sys2Proof.Proofs
end

