-- ==== Sys2Proof/Proofs/JumpAndHalt.lean ====
section
/-! jalr, and beq with the halt pattern (43_control_transfer.md R117, R120, R130, 45_driver.md R146). -/

namespace Sys2Proof.Proofs

open Sys2Proof.Machine Sys2Proof.Safety

/-! ### jalr -/

theorem exec_jalr (rd rs1 : RegIdx) (imm : BitVec 12) (s : State) :
    exec (.jalr rd rs1 imm) s = finish s (writeRegResult rd (nextPc s) (jalrTarget s rs1 imm)) := rfl

/-- Clearing bit 0 rounds down to an even number. -/
theorem toNat_and_clear_bit_zero (w : Word) : (w &&& 0xFFFFFFFE#32).toNat = w.toNat / 2 * 2 := by
  have hshift : w &&& 0xFFFFFFFE#32 = (w >>> 1) <<< 1 := by
    refine BitVec.eq_of_getLsbD_eq fun k hk => ?_
    simp only [BitVec.getLsbD_and, BitVec.getLsbD_shiftLeft, BitVec.getLsbD_ushiftRight]
    interval_cases k <;> simp
  have := w.isLt
  rw [hshift, BitVec.toNat_shiftLeft, BitVec.toNat_ushiftRight, Nat.shiftLeft_eq, Nat.shiftRight_eq_div_pow]
  omega

/-- Modulo 2^32 it is the same whether the register of a sum is read as signed or as unsigned. -/
theorem toNat_effectiveAddress (s : State) (rs1 : RegIdx) (imm : BitVec 12) :
    (effectiveAddress s rs1 imm).toNat = ((((readReg s rs1).toNat : Int) + imm.toInt) % 2 ^ 32).toNat := by
  have hreading : BitVec.ofInt 32 (readReg s rs1).toInt = BitVec.ofInt 32 (readReg s rs1).toNat := by
    rw [← u32_eq_ofInt, ← u32_eq_ofInt, u32_toInt, u32_toNat]
  rw [effectiveAddress_eq_ofInt, BitVec.ofInt_add, hreading, ← BitVec.ofInt_add, BitVec.toNat_ofInt]
  rfl

theorem toNat_jalrTarget (s : State) (rs1 : RegIdx) (imm : BitVec 12) :
    (jalrTarget s rs1 imm).toNat = ((((readReg s rs1).toNat : Int) + imm.toInt) % 2 ^ 32).toNat / 2 * 2 := by
  rw [← toNat_effectiveAddress, ← toNat_and_clear_bit_zero]
  rfl

/-- Settles O23: opcode and funct3 select jalr's row; the target is formed from the state before, so rd = rs1 needs no case of
its own. -/
theorem jalrLinksAndJumps : Obligations.JalrLinksAndJumps := by
  refine ⟨fun w h => decode_of_jalr_mask h, fun s rd rs1 imm => ?_⟩
  rw [← nextPc_eq]
  exact ⟨_, _, exec_jalr rd rs1 imm s, commit_writeRegResult_writesRegister s rd _ _, toNat_jalrTarget s rs1 imm⟩

/-! ### beq -/

theorem exec_beq_halt (r : RegIdx) (s : State) : exec (.beq r r 0) s = finish s .halt :=
  congrArg (finish s) (if_pos ⟨rfl, rfl⟩)

theorem exec_beq_branch {rs1 rs2 : RegIdx} {off : BitVec 13} (h : ¬ (rs1 = rs2 ∧ off = 0#13)) (s : State) :
    exec (.beq rs1 rs2 off) s = finish s (branchResult s (samePattern (readReg s rs1) (readReg s rs2)) off) :=
  congrArg (finish s) (if_neg h)

theorem commit_halt_halts (s : State) : Halts s (commit s .halt) :=
  ⟨fun _ => rfl, fun _ => rfl, countStep_committed s s.regs s.mem s.pc .halted⟩

/-- Settles O24: beq's result is the halt exactly under the halt pattern, and otherwise a branch on equal patterns. -/
theorem beqBranchesOrHalts : Obligations.BeqBranchesOrHalts := by
  refine ⟨fun w h => ⟨_, decode_of_beq_mask h, rfl⟩, fun s rs1 rs2 off => ⟨?halts, fun hnot => ?branches⟩⟩
  case halts =>
    rintro rfl rfl
    exact ⟨_, exec_beq_halt rs1 s, commit_halt_halts s⟩
  case branches =>
    simp only [← samePattern_iff]
    exact exec_branch_onlyJumps (exec_beq_branch (not_and_or.mpr hnot) s)

end Sys2Proof.Proofs
end

