-- ==== Sys2Proof/Proofs/Execution.lean ====
section
/-! Rules over all instructions (10_state.md R12, R14, 45_driver.md R144): the step result of an instruction, the register it
may write, what it reads, and the phases it can lead to. -/

namespace Sys2Proof.Proofs

open Sys2Proof.Machine Sys2Proof.Safety

/-! ### The step result of an instruction -/

/-- What the execution engine hands to the driver's commit (45_driver.md R144). -/
def stepResult (i : Instr) (s : State) : StepResult :=
  match i with
  | .add rd rs1 rs2 => writeRegResult rd (addWords (readReg s rs1) (readReg s rs2)) (nextPc s)
  | .sub rd rs1 rs2 => writeRegResult rd (subWords (readReg s rs1) (readReg s rs2)) (nextPc s)
  | .slt rd rs1 rs2 => writeRegResult rd (sltWord (readReg s rs1) (readReg s rs2)) (nextPc s)
  | .srl rd rs1 rs2 => writeRegResult rd (srlWord (readReg s rs1) (readReg s rs2)) (nextPc s)
  | .or rd rs1 rs2 => writeRegResult rd (readReg s rs1 ||| readReg s rs2) (nextPc s)
  | .and rd rs1 rs2 => writeRegResult rd (readReg s rs1 &&& readReg s rs2) (nextPc s)
  | .addi rd rs1 imm => writeRegResult rd (addWords (readReg s rs1) (sext imm)) (nextPc s)
  | .lw rd rs1 imm => loadResult s rd (effectiveAddress s rs1 imm)
  | .jalr rd rs1 imm => writeRegResult rd (nextPc s) (jalrTarget s rs1 imm)
  | .sw rs1 rs2 imm => storeResult s (effectiveAddress s rs1 imm) (readReg s rs2)
  | .beq rs1 rs2 off =>
    if rs1 = rs2 ∧ off = 0#13 then .halt else branchResult s (samePattern (readReg s rs1) (readReg s rs2)) off
  | .bne rs1 rs2 off => branchResult s (!samePattern (readReg s rs1) (readReg s rs2)) off
  | .blt rs1 rs2 off => branchResult s (lessSigned (readReg s rs1) (readReg s rs2)) off
  | .jal rd off => writeRegResult rd (nextPc s) (relativeTarget s off)

/-- Executing an instruction is the commit of its step result, in every state. -/
theorem exec_eq_finish (i : Instr) (s : State) : exec i s = finish s (stepResult i s) := by
  cases i <;> rfl

theorem exec_eq_next (i : Instr) (s : State) : exec i s = .next (commit s (stepResult i s)) := exec_eq_finish i s

theorem eq_commit_of_exec {i : Instr} {s t : State} (h : exec i s = .next t) : t = commit s (stepResult i s) :=
  Host.Outcome.next.inj (h.symm.trans (exec_eq_next i s))

/-! ### The registers an instruction writes -/

/-- An instruction with a destination writes that register, unless it is an lw that faults. -/
theorem stepResult_of_destination {i : Instr} {rd : RegIdx} (h : destination i = some rd) (s : State) :
    (∃ v pc, stepResult i s = writeRegResult rd v pc) ∨ ∃ a, stepResult i s = .outOfRange a := by
  cases i with
  | sw rs1 rs2 imm => cases h
  | beq rs1 rs2 off => cases h
  | bne rs1 rs2 off => cases h
  | blt rs1 rs2 off => cases h
  | lw rd' rs1 imm =>
    cases h
    simp only [stepResult, loadResult]
    split
    · exact .inl ⟨_, _, rfl⟩
    · exact .inr ⟨_, rfl⟩
  | _ => cases h; exact .inl ⟨_, _, rfl⟩

/-- An instruction without a destination commits no register write. -/
theorem commit_regs_of_no_destination {i : Instr} (h : destination i = none) (s : State) :
    (commit s (stepResult i s)).regs = s.regs := by
  cases i with
  | sw rs1 rs2 imm =>
    rw [stepResult, commit_store]
    split <;> rfl
  | beq rs1 rs2 off =>
    rw [stepResult]
    split <;> rfl
  | bne rs1 rs2 off => rfl
  | blt rs1 rs2 off => rfl
  | _ => cases h

/-- The registers after an instruction: as before, or with one write at the destination. -/
theorem commit_regs_cases (i : Instr) (s : State) :
    (commit s (stepResult i s)).regs = s.regs ∨
      ∃ rd v, destination i = some rd ∧ (commit s (stepResult i s)).regs = regSet s.regs rd v := by
  cases hdest : destination i with
  | none => exact .inl (commit_regs_of_no_destination hdest s)
  | some rd =>
    obtain ⟨v, pc, hresult⟩ | ⟨a, hresult⟩ := stepResult_of_destination hdest s
    · exact .inr ⟨rd, v, rfl, by rw [hresult, commit_writeReg]; rfl⟩
    · exact .inl (by rw [hresult]; rfl)

/-- A register that is not the destination, or is x0, reads as before. -/
theorem readReg_commit_of_not_written {i : Instr} {r : RegIdx} (h : destination i ≠ some r ∨ r = 0#5) (s : State) :
    readReg (commit s (stepResult i s)) r = readReg s r := by
  obtain hregs | ⟨rd, v, hdest, hregs⟩ := commit_regs_cases i s
  · exact readReg_congr hregs r
  · rw [readReg, hregs, regGet_regSet, if_neg]
    · rfl
    · rintro ⟨rfl, hne⟩
      exact h.elim (fun hother => hother hdest) hne

/-- Settles O29: the destination x0 is never written, and any other register is not the destination. -/
theorem x0DestinationDiscards : Obligations.X0DestinationDiscards := by
  intro i s hdest
  refine ⟨_, exec_eq_next i s, fun r => readReg_commit_of_not_written ?_ s, readReg_zero _⟩
  by_cases hr : r = 0#5
  · exact .inr hr
  · exact .inl fun h => hr (Option.some.inj (h.symm.trans hdest))

/-! ### What an instruction depends on -/

/-- The step result depends on the PC, on memory and on the source registers only. -/
theorem stepResult_congr {i : Instr} {s s' : State} (hpc : s'.pc = s.pc) (hmem : s'.mem = s.mem)
    (hsrc : ∀ r ∈ sources i, readReg s' r = readReg s r) : stepResult i s' = stepResult i s := by
  have hnext : nextPc s' = nextPc s := by rw [nextPc, hpc, nextPc]
  have htarget {n : Nat} (off : BitVec n) : relativeTarget s' off = relativeTarget s off := by
    rw [relativeTarget, hpc, relativeTarget]
  cases i <;> simp only [sources, List.forall_mem_cons, List.not_mem_nil, false_implies, implies_true, and_true] at hsrc <;>
    simp only [stepResult, loadResult, storeResult, branchResult, effectiveAddress, jalrTarget, hnext, htarget, hmem, hsrc]

/-- What the commit makes of the PC, the memory and the phase depends on the state's PC and memory only. -/
theorem commit_congr {s s' : State} (r : StepResult) (hpc : s'.pc = s.pc) (hmem : s'.mem = s.mem) :
    (commit s' r).pc = (commit s r).pc ∧ (commit s' r).mem = (commit s r).mem ∧
      (commit s' r).phase = (commit s r).phase := by
  cases r with
  | next w t =>
    obtain ⟨reg, mem⟩ := w
    cases reg <;> cases mem <;> simp [commit, applyWrites, hmem]
  | halt => exact ⟨hpc, hmem, rfl⟩
  | outOfRange a => exact ⟨hpc, hmem, rfl⟩

theorem readReg_commit_writeRegResult (s : State) (rd : RegIdx) (v pc : Word) :
    readReg (commit s (writeRegResult rd v pc)) rd = if rd = 0#5 then 0#32 else v := by
  obtain ⟨hreg, -⟩ := commit_writeRegResult_writesRegister s rd v pc
  by_cases hrd : rd = 0#5
  · rw [if_pos hrd, hrd, readReg_zero]
  · rw [if_neg hrd, readReg_destination hreg hrd]

/-- Settles O30: the first clause is that only the destination is written; in the second the two states give the same step
result, whose commit is the same but for the registers it does not write. -/
theorem registerUseTable : Obligations.RegisterUseTable := by
  refine ⟨fun i s => ⟨_, exec_eq_next i s, fun r hr => readReg_commit_of_not_written (.inl hr) s⟩,
    fun i s s' hpc hmem hsrc => ?_⟩
  obtain ⟨hpc', hmem', hphase'⟩ := commit_congr (stepResult i s) hpc hmem
  have hexec' : exec i s' = .next (commit s' (stepResult i s)) := by
    rw [exec_eq_next, stepResult_congr hpc hmem hsrc]
  refine ⟨_, _, exec_eq_next i s, hexec', hpc', hmem', hphase', fun hphase rd hdest => ?_⟩
  obtain ⟨v, pc, hresult⟩ | ⟨a, hresult⟩ := stepResult_of_destination hdest s
  · rw [hresult, readReg_commit_writeRegResult, readReg_commit_writeRegResult]
  · rw [hresult] at hphase
    exact absurd rfl hphase

/-! ### Memory and phases -/

/-- Settles O31: the one case in which memory changes is a sw. -/
theorem onlySwChangesMemory : Obligations.OnlySwChangesMemory := by
  intro i s hnot
  refine ⟨_, exec_eq_next i s, ?_⟩
  obtain hsame | ⟨rs1, rs2, imm, hsw, -⟩ := exec_mem_cases (exec_eq_next i s)
  · exact ⟨hsame, fun a => by rw [hsame]⟩
  · exact absurd hsw (hnot rs1 rs2 imm)

/-- An lw or sw beside the slots ends in `Faulted`. -/
theorem exec_of_raisesOutOfRange {i : Instr} {s : State} (h : RaisesOutOfRange i s) :
    ∃ t aux, exec i s = .next t ∧ EntersFaulted s t .outOfRangeAccess (position s.pc) aux := by
  obtain ⟨rs1, imm, hi, hnot⟩ := h
  rw [← effectiveAddress_eq_ofInt] at hnot
  obtain ⟨rd, rfl⟩ | ⟨rs2, rfl⟩ := hi
  · obtain ⟨t, hexec, henters⟩ := exec_lw_entersFaulted (rd := rd) hnot
    exact ⟨t, _, hexec, henters⟩
  · obtain ⟨t, hexec, henters⟩ := exec_sw_entersFaulted (rs2 := rs2) hnot
    exact ⟨t, _, hexec, henters⟩

theorem exec_of_isHaltPattern {i : Instr} (h : IsHaltPattern i) (s : State) : ∃ t, exec i s = .next t ∧ Halts s t := by
  obtain ⟨r, rfl⟩ := h
  exact ⟨_, exec_beq_halt r s, commit_halt_halts s⟩

theorem phase_of_raisesOutOfRange {i : Instr} {s t : State} (h : RaisesOutOfRange i s) (hexec : exec i s = .next t) :
    t.phase = .faulted := by
  obtain ⟨t', aux, hexec', hphase, -⟩ := exec_of_raisesOutOfRange h
  rwa [Host.Outcome.next.inj (hexec.symm.trans hexec')]

theorem phase_of_isHaltPattern {i : Instr} {s t : State} (h : IsHaltPattern i) (hexec : exec i s = .next t) :
    t.phase = .halted := by
  obtain ⟨t', hexec', -, -, -, hphase, -⟩ := exec_of_isHaltPattern h s
  rwa [Host.Outcome.next.inj (hexec.symm.trans hexec')]

/-- The three ends of an execution. -/
theorem exec_ends {i : Instr} {s t : State} (h : exec i s = .next t) :
    (t.phase = .fetching ∧ ∃ pc, Committed s t pc .fetching) ∨ (t.phase = .halted ∧ IsHaltPattern i) ∨
      (t.phase = .faulted ∧ RaisesOutOfRange i s) := by
  obtain ⟨t', ht', ⟨f, m, pc, rfl, -⟩ | ⟨r, rfl, rfl⟩ | ⟨rs1, imm, hi, hread, rfl⟩⟩ := exec_cases i s <;>
    obtain rfl := Host.Outcome.next.inj (h.symm.trans ht')
  · exact .inl ⟨rfl, pc, countStep_committed s f m pc .fetching⟩
  · exact .inr (.inl ⟨rfl, r, rfl⟩)
  · refine .inr (.inr ⟨rfl, rs1, imm, hi, ?_⟩)
    rwa [← effectiveAddress_eq_ofInt, ← memRead_eq_none_iff s.mem]

/-- Settles O28: each of the three ends has a phase of its own, and the halt pattern and an access beside the slots lead to
theirs. -/
theorem onlyBeqHaltsOnlyLoadStoreFaults : Obligations.OnlyBeqHaltsOnlyLoadStoreFaults := by
  intro i s
  have hexec := exec_eq_next i s
  have hends := exec_ends hexec
  refine ⟨_, hexec, ⟨fun hphase => ?halts, fun h => phase_of_isHaltPattern h hexec⟩,
    ⟨fun hphase => ?faults, fun h => phase_of_raisesOutOfRange h hexec⟩, ?phases⟩
  case halts =>
    rw [hphase] at hends
    obtain ⟨h, -⟩ | ⟨-, h⟩ | ⟨h, -⟩ := hends
    · cases h
    · exact h
    · cases h
  case faults =>
    rw [hphase] at hends
    obtain ⟨h, -⟩ | ⟨h, -⟩ | ⟨-, h⟩ := hends
    · cases h
    · cases h
    · exact h
  case phases =>
    obtain ⟨h, -⟩ | ⟨h, -⟩ | ⟨h, -⟩ := hends
    · exact .inr (.inr h)
    · exact .inl h
    · exact .inr (.inl h)

end Sys2Proof.Proofs
end

