-- ==== Sys2Proof/Proofs/DriverStep.lean ====
section
/-! The atomic step (45_driver.md R139 to R153): that it exists outside the terminal phases, what it can do, what it keeps and
records, and the products of the phase it ends in. -/

namespace Sys2Proof.Proofs

open Sys2Proof.Machine Sys2Proof.Safety

/-! ### The step through a decoded instruction -/

theorem advance_of_executing {s : State} {i : Instr} (h : s.phase = .executing i) : advance s = exec i s := by
  rw [advance, h]

/-- Executing is the last row of a step. -/
theorem finishStep_of_executing {n : Nat} {s : State} {i : Instr} (h : s.phase = .executing i) :
    finishStep (n + 1) s = exec i s := by
  have hinside : s.phase.insideStep = true := by rw [h, Phase.insideStep]
  rw [finishStep_inside hinside, advance_of_executing h, exec_eq_next]
  exact finishStep_outside (exec_outside (exec_eq_next i s))

theorem finishStep_of_decoded {n : Nat} {s : State} {w : Word} {i : Instr} (hphase : s.phase = .decoding w)
    (hdecode : decode w = .instr i) : finishStep (n + 2) s = exec i s := by
  have hinside : s.phase.insideStep = true := by rw [hphase, Phase.insideStep]
  rw [finishStep_inside hinside, advance_of_decoding hphase, decodeStage_of_instr hdecode]
  exact (finishStep_of_executing rfl).trans (exec_phase i s _)

theorem step_of_decoded {s : State} {w : Word} {i : Instr} (hphase : s.phase = .fetching)
    (hsteps : s.steps ≠ Config.stepCeiling) (hfetch : fetchWord s = some w) (hdecode : decode w = .instr i) :
    step s = exec i s := by
  rw [step_of_fetched hphase hsteps hfetch, finishStep_of_decoded rfl hdecode, exec_phase]

/-- Settles O32: the three rows of the step are the fetch, the decoding and the execution, of which the first two leave no mark
but the phase. -/
theorem stepRunsDecodedInstruction : Obligations.StepRunsDecodedInstruction :=
  fun _ _ _ hphase hsteps haligned hword hdecode =>
    step_of_decoded hphase hsteps (fetchWord_eq_some.mpr ⟨haligned, hword⟩) hdecode

/-! ### The step that ends in its first row -/

theorem step_of_ceiling {s : State} (hphase : s.phase = .fetching) (hsteps : s.steps = Config.stepCeiling) :
    step s = .next { s with phase := .ceilingHalted } := by
  rw [step, driverStep, advance_of_fetching hphase, fetchStage_ceiling hsteps]
  exact finishStep_outside rfl

theorem step_of_not_fetched {s : State} (hphase : s.phase = .fetching) (hsteps : s.steps ≠ Config.stepCeiling)
    (hfetch : fetchWord s = none) : step s = .next (enterFaulted s .fetchOutOfRange (position s.pc) (some s.pc)) := by
  rw [step, driverStep, advance_of_fetching hphase, fetchStage_outOfRange hsteps hfetch]
  exact finishStep_outside rfl

/-- Settles O33: the ceiling test is the first of the row, and its phase is no stage inside a step. -/
theorem ceilingEndsRun : Obligations.CeilingEndsRun :=
  fun _ hphase hsteps => ⟨_, step_of_ceiling hphase hsteps, rfl, rfl⟩

/-- Settles O34: where no word is fetched the row enters `Faulted`, which ends the step. -/
theorem fetchOutsideProgramFaults : Obligations.FetchOutsideProgramFaults :=
  fun s hphase hsteps houtside =>
    ⟨_, step_of_not_fetched hphase hsteps (fetchWord_eq_none.mpr houtside), enterFaulted_entersFaulted s _ _ _⟩

/-! ### Where a step exists -/

theorem advance_of_ended {s : State} (h : Ended s) : ∃ r, advance s = .fault r := by
  obtain h | h | h := h
  · exact ⟨.haltedHasNoStep, by rw [advance, h]⟩
  · exact ⟨.ceilingHaltedHasNoStep, by rw [advance, h]⟩
  · exact ⟨.faultedHasNoStep, by rw [advance, h]⟩

theorem step_of_ended {s : State} (h : Ended s) : ∃ r, step s = .fault r := by
  obtain ⟨r, hr⟩ := advance_of_ended h
  exact ⟨r, by rw [step, driverStep, hr]⟩

/-- A step from a stage inside one is what is left of it. -/
theorem step_of_inside {s : State} (h : s.phase.insideStep = true) : step s = finishStep 3 s := by
  rw [finishStep_inside h]
  rfl

/-- Everything a step can do, from any phase that has one: the ceiling, the entry into `Faulted` before an execution, or the
execution of an instruction, which from `Fetching` is one a program word decodes to. -/
def StepEnd (s t : State) : Prop :=
  (s.phase = .fetching ∧ s.steps = Config.stepCeiling ∧ t = { s with phase := .ceilingHalted }) ∨
    (∃ kind aux, (kind = .unknownInstruction ∨ kind = .fetchOutOfRange) ∧
      t = enterFaulted s kind (position s.pc) aux) ∨
    ∃ i, exec i s = .next t ∧ (s.phase = .fetching → s.steps ≠ Config.stepCeiling ∧ WellFormed i)

/-- Outside the terminal phases a step exists, with one of these ends. -/
theorem exists_step {s : State} (h : ¬ Ended s) : ∃ t, step s = .next t ∧ StepEnd s t := by
  cases hphase : s.phase with
  | fetching =>
    by_cases hsteps : s.steps = Config.stepCeiling
    · exact ⟨_, step_of_ceiling hphase hsteps, .inl ⟨hphase, hsteps, rfl⟩⟩
    cases hfetch : fetchWord s with
    | none => exact ⟨_, step_of_not_fetched hphase hsteps hfetch, .inr (.inl ⟨_, _, .inr rfl, rfl⟩)⟩
    | some w =>
      cases hdecode : decode w with
      | unknownInstruction =>
        exact ⟨_, step_of_unknown hphase hsteps hfetch hdecode, .inr (.inl ⟨_, _, .inl rfl, rfl⟩)⟩
      | instr i =>
        have hexec := exec_eq_next i s
        exact ⟨_, (step_of_decoded hphase hsteps hfetch hdecode).trans hexec,
          .inr (.inr ⟨i, hexec, fun _ => ⟨hsteps, decode_wellFormed hdecode⟩⟩)⟩
  | decoding w =>
    rw [step_of_inside (by rw [hphase, Phase.insideStep])]
    cases hdecode : decode w with
    | unknownInstruction => exact ⟨_, finishStep_of_unknown hphase hdecode, .inr (.inl ⟨_, _, .inl rfl, rfl⟩)⟩
    | instr i =>
      have hexec := exec_eq_next i s
      exact ⟨_, (finishStep_of_decoded hphase hdecode).trans hexec,
        .inr (.inr ⟨i, hexec, fun h => nomatch hphase.symm.trans h⟩)⟩
  | executing i =>
    rw [step_of_inside (by rw [hphase, Phase.insideStep])]
    have hexec := exec_eq_next i s
    exact ⟨_, (finishStep_of_executing hphase).trans hexec,
      .inr (.inr ⟨i, hexec, fun h => nomatch hphase.symm.trans h⟩)⟩
  | halted => exact absurd (.inl hphase) h
  | ceilingHalted => exact absurd (.inr (.inl hphase)) h
  | faulted => exact absurd (.inr (.inr hphase)) h

theorem not_ended_of_step {s t : State} (h : step s = .next t) : ¬ Ended s := by
  intro hended
  obtain ⟨r, hr⟩ := step_of_ended hended
  rw [hr] at h
  cases h

theorem stepEnd_of_step {s t : State} (h : step s = .next t) : StepEnd s t := by
  obtain ⟨t', ht', hcases⟩ := exists_step (not_ended_of_step h)
  rwa [Host.Outcome.next.inj (h.symm.trans ht')]

theorem runSteps_of_ended {s : State} (h : Ended s) (n : Nat) : runSteps n s = s := by
  cases n with
  | zero => rfl
  | succ n =>
    obtain ⟨r, hr⟩ := step_of_ended h
    rw [runSteps, hr]

theorem runSteps_of_step {s t : State} (h : step s = .next t) (n : Nat) : runSteps (n + 1) s = runSteps n t := by
  rw [runSteps, h]

/-- Settles O36: from a terminal phase the first row is missing, and from every other phase `exists_step` gives the next
state. -/
theorem terminalPhasesHaveNoStep : Obligations.TerminalPhasesHaveNoStep := by
  intro s
  refine ⟨⟨step_of_ended, fun ⟨r, hr⟩ => ?ended⟩, ⟨fun h => ?running, fun ⟨t, ht⟩ => not_ended_of_step ht⟩,
    runSteps_of_ended⟩
  case ended =>
    by_contra hnot
    obtain ⟨t, ht, -⟩ := exists_step hnot
    rw [hr] at ht
    cases ht
  case running =>
    obtain ⟨t, ht, -⟩ := exists_step h
    exact ⟨t, ht⟩

/-! ### What every step keeps and records -/

theorem exec_keeps_prog {i : Instr} {s t : State} (h : exec i s = .next t) : t.prog = s.prog := by
  obtain ⟨t', ht', ⟨f, m, pc, rfl, -⟩ | ⟨r, -, rfl⟩ | ⟨rs1, imm, -, -, rfl⟩⟩ := exec_cases i s <;>
    obtain rfl := Host.Outcome.next.inj (h.symm.trans ht') <;> rfl

/-- Settles O41, case by case of what a step can do. -/
theorem programMemoryImmutable : Obligations.ProgramMemoryImmutable := by
  intro s t h
  obtain ⟨-, -, rfl⟩ | ⟨kind, aux, -, rfl⟩ | ⟨i, hexec, -⟩ := stepEnd_of_step h
  · rfl
  · rfl
  · exact exec_keeps_prog hexec

theorem statusOf_of_not_ended {s : State} (h : ¬ Ended s) : statusOf s = none := by
  cases hphase : s.phase with
  | halted => exact absurd (.inl hphase) h
  | ceilingHalted => exact absurd (.inr (.inl hphase)) h
  | faulted => exact absurd (.inr (.inr hphase)) h
  | _ => rw [statusOf, hphase]

/-- Settles O48: the products follow the status, and the status the phase. -/
theorem productsByTerminalPhase : Obligations.ProductsByTerminalPhase := by
  intro s
  refine ⟨fun h => ?halted, fun h => ?ceilingHalted, fun k p x h hrecord => ?faulted, fun h => ?running⟩
  case halted => simp [productsOf, statusOf, h]
  case ceilingHalted => simp [productsOf, statusOf, h]
  case faulted => simp [productsOf, statusOf, h, hrecord]
  case running => rw [productsOf, statusOf_of_not_ended h, Option.map_none]

/-- A state that `Faulted` has been entered into emits the kind and the position only. -/
theorem products_of_entersFaulted {s t : State} {kind : FaultKind} {pos : Nat} {aux : Option Word}
    (h : EntersFaulted s t kind pos aux) : productsOf t = some ⟨none, none, .faulted kind pos⟩ := by
  obtain ⟨hphase, hrecord, -⟩ := h
  obtain ⟨-, -, hfaulted, -⟩ := productsByTerminalPhase t
  exact hfaulted kind pos aux hphase hrecord

/-- Settles O39: the entries before an execution are those of a fetch or a decoding, and an execution that ends in `Faulted` is
an access beside the slots. -/
theorem faultEntryIsPrecise : Obligations.FaultEntryIsPrecise := by
  intro s t _ hstep hfaulted
  obtain ⟨-, -, rfl⟩ | ⟨kind, aux, hkind, rfl⟩ | ⟨i, hexec, -⟩ := stepEnd_of_step hstep
  · cases hfaulted
  · have henters := enterFaulted_entersFaulted s kind (position s.pc) aux
    exact ⟨kind, aux, hkind.imp_right .inr, henters, products_of_entersFaulted henters⟩
  · have hends := exec_ends hexec
    rw [hfaulted] at hends
    obtain ⟨h, -⟩ | ⟨h, -⟩ | ⟨-, hraises⟩ := hends
    · cases h
    · cases h
    · obtain ⟨t', aux, hexec', henters⟩ := exec_of_raisesOutOfRange hraises
      obtain rfl : t = t' := Host.Outcome.next.inj (hexec.symm.trans hexec')
      exact ⟨_, aux, .inr (.inl rfl), henters, products_of_entersFaulted henters⟩

/-- Settles O40: a step that ends in `Fetching` or `Halted` is the execution of an instruction, whose commit counts and traces
it. -/
theorem committedStepIsTraced : Obligations.CommittedStepIsTraced := by
  intro s t _ hstep hphase
  obtain ⟨-, -, rfl⟩ | ⟨kind, aux, hkind, rfl⟩ | ⟨i, hexec, -⟩ := stepEnd_of_step hstep
  · simp at hphase
  · simp at hphase
  · obtain ⟨t', ht', ⟨f, m, pc, rfl, -⟩ | ⟨r, -, rfl⟩ | ⟨rs1, imm, -, -, rfl⟩⟩ := exec_cases i s <;>
      obtain rfl := Host.Outcome.next.inj (hexec.symm.trans ht')
    · exact ⟨rfl, rfl, rfl, nofun⟩
    · exact ⟨rfl, rfl, rfl, fun _ => ⟨rfl, rfl, rfl⟩⟩
    · simp at hphase

end Sys2Proof.Proofs
end

