-- ==== Sys2Proof/Proofs/TableRun.lean ====
section
/-! The atomic step as the run of the transition table's rows (45_driver.md R139, R149): after its first row a step has at most
two stages left, and each row leaves one less. -/

namespace Sys2Proof.Proofs

open Sys2Proof.Machine Sys2Proof.Safety

/-- How many rows the step has left in a phase. -/
def rowsLeft : Phase → Nat
  | .decoding _ => 2
  | .executing _ => 1
  | _ => 0

theorem insideStep_iff_rowsLeft_pos (p : Phase) : p.insideStep = true ↔ 0 < rowsLeft p := by
  cases p <;> simp [Phase.insideStep, rowsLeft]

theorem rowsLeft_le_two (p : Phase) : rowsLeft p ≤ 2 := by
  cases p <;> simp [rowsLeft]

theorem rowsLeft_of_exec {i : Instr} {s t : State} (h : exec i s = .next t) : rowsLeft t.phase = 0 := by
  have houtside := exec_outside h
  have := insideStep_iff_rowsLeft_pos t.phase
  simp_all

theorem rowsLeft_decodeStage_lt (w : Word) (s : State) : rowsLeft (decodeStage w s).phase < 2 := by
  unfold decodeStage
  split <;> simp [rowsLeft]

/-- A row inside a step exists and leaves fewer. -/
theorem advance_of_inside {s : State} (h : s.phase.insideStep = true) :
    ∃ t, advance s = .next t ∧ rowsLeft t.phase < rowsLeft s.phase := by
  cases hphase : s.phase with
  | decoding w => exact ⟨_, advance_of_decoding hphase, rowsLeft_decodeStage_lt w s⟩
  | executing i =>
    have hexec := exec_eq_next i s
    refine ⟨_, (advance_of_executing hphase).trans hexec, ?_⟩
    rw [rowsLeft_of_exec hexec]
    exact Nat.one_pos
  | _ => rw [hphase] at h; cases h

/-- `t` is where the rows from `s` first leave the inside of a step, after at most `n` of them. -/
def RunsOut (n : Nat) (s t : State) : Prop :=
  ∃ k, k ≤ n ∧ rows k s = some t ∧ t.phase.insideStep = false ∧
    ∀ j, j < k → ∃ u, rows j s = some u ∧ u.phase.insideStep = true

theorem rows_succ_of_advance {s t : State} (h : advance s = .next t) (n : Nat) : rows (n + 1) s = rows n t := by
  rw [rows, h]

theorem runsOut_of_outside {n : Nat} {s t : State} (h : s.phase.insideStep = false) : RunsOut n s t ↔ t = s := by
  constructor
  · rintro ⟨k, -, hrows, -, hinside⟩
    cases k with
    | zero => exact (Option.some.inj hrows).symm
    | succ k =>
      obtain ⟨u, hu, hin⟩ := hinside 0 k.succ_pos
      cases hu
      rw [h] at hin
      cases hin
  · rintro rfl
    exact ⟨0, n.zero_le, rfl, h, nofun⟩

/-- Inside a step the run goes on with the next row. -/
theorem runsOut_succ_of_inside {n : Nat} {s u t : State} (h : s.phase.insideStep = true) (hu : advance s = .next u) :
    RunsOut (n + 1) s t ↔ RunsOut n u t := by
  constructor
  · rintro ⟨k, hk, hrows, hout, hinside⟩
    cases k with
    | zero =>
      cases hrows
      rw [h] at hout
      cases hout
    | succ k =>
      rw [rows_succ_of_advance hu] at hrows
      refine ⟨k, Nat.le_of_succ_le_succ hk, hrows, hout, fun j hj => ?_⟩
      rw [← rows_succ_of_advance hu]
      exact hinside (j + 1) (Nat.succ_lt_succ hj)
  · rintro ⟨k, hk, hrows, hout, hinside⟩
    refine ⟨k + 1, Nat.succ_le_succ hk, by rwa [rows_succ_of_advance hu], hout, fun j hj => ?_⟩
    cases j with
    | zero => exact ⟨s, rfl, h⟩
    | succ j =>
      rw [rows_succ_of_advance hu]
      exact hinside j (Nat.lt_of_succ_lt_succ hj)

/-- With as many rows allowed as are left, finishing the step is running the table out of it. -/
theorem finishStep_iff_runsOut {n : Nat} {s t : State} (hn : rowsLeft s.phase ≤ n) :
    finishStep n s = .next t ↔ RunsOut n s t := by
  induction n generalizing s with
  | zero =>
    have houtside : s.phase.insideStep = false := by
      rw [Bool.eq_false_iff, ne_eq, insideStep_iff_rowsLeft_pos]
      omega
    rw [finishStep_outside houtside, runsOut_of_outside houtside, Host.Outcome.next.injEq, eq_comm]
  | succ n ih =>
    cases hinside : s.phase.insideStep with
    | false => rw [finishStep_outside hinside, runsOut_of_outside hinside, Host.Outcome.next.injEq, eq_comm]
    | true =>
      obtain ⟨u, hu, hless⟩ := advance_of_inside hinside
      rw [finishStep_inside hinside, hu, runsOut_succ_of_inside hinside hu]
      exact ih (by omega)

theorem advance_of_not_ended {s : State} (h : ¬ Ended s) : ∃ t, advance s = .next t := by
  cases hphase : s.phase with
  | fetching => exact ⟨_, advance_of_fetching hphase⟩
  | decoding w => exact ⟨_, advance_of_decoding hphase⟩
  | executing i => exact ⟨_, (advance_of_executing hphase).trans (exec_eq_next i s)⟩
  | halted => exact absurd (.inl hphase) h
  | ceilingHalted => exact absurd (.inr (.inl hphase)) h
  | faulted => exact absurd (.inr (.inr hphase)) h

theorem rows_succ_of_ended {s : State} (h : Ended s) (n : Nat) : rows (n + 1) s = none := by
  obtain ⟨r, hr⟩ := advance_of_ended h
  rw [rows, hr]

/-- The rows from a state that has one, after the first, are the rows from the next state. -/
theorem runsOut_next_iff {s u t : State} (h : advance s = .next u) :
    (∃ n, 1 ≤ n ∧ n ≤ 3 ∧ rows n s = some t ∧ t.phase.insideStep = false ∧
      ∀ k, 1 ≤ k → k < n → ∃ v, rows k s = some v ∧ v.phase.insideStep = true) ↔ RunsOut 2 u t := by
  constructor
  · rintro ⟨n, hn, hn3, hrows, hout, hinside⟩
    obtain ⟨k, rfl⟩ := Nat.exists_eq_add_of_le' hn
    rw [rows_succ_of_advance h] at hrows
    refine ⟨k, by omega, hrows, hout, fun j hj => ?_⟩
    rw [← rows_succ_of_advance h]
    exact hinside (j + 1) (by omega) (by omega)
  · rintro ⟨k, hk, hrows, hout, hinside⟩
    refine ⟨k + 1, by omega, by omega, by rwa [rows_succ_of_advance h], hout, fun j hj hjk => ?_⟩
    obtain ⟨j, rfl⟩ := Nat.exists_eq_add_of_le' hj
    rw [rows_succ_of_advance h]
    exact hinside j (by omega)

/-- Settles O38: the first row is the step's from every phase that has one, and `finishStep` runs what is left of it, at most
two rows; a terminal phase has neither a step nor a row. -/
theorem atomicStepIsTableRun : Obligations.AtomicStepIsTableRun := by
  intro s t
  by_cases hended : Ended s
  · refine ⟨fun h => absurd hended (not_ended_of_step h), ?_⟩
    rintro ⟨n, hn, -, hrows, -⟩
    obtain ⟨k, rfl⟩ := Nat.exists_eq_add_of_le' hn
    rw [rows_succ_of_ended hended] at hrows
    cases hrows
  · obtain ⟨u, hu⟩ := advance_of_not_ended hended
    rw [runsOut_next_iff hu, ← finishStep_iff_runsOut (rowsLeft_le_two u.phase), step, driverStep, hu]

end Sys2Proof.Proofs
end

