-- ==== Sys2Proof/Proofs/Invariant.lean ====
section
/-! The invariant of a run (45_driver.md R149, R151, R156, 43_control_transfer.md R123): every step keeps it. -/

namespace Sys2Proof.Proofs

open Sys2Proof.Machine Sys2Proof.Safety

/-! ### The PC stays even -/

theorem toNat_nextPc_even {s : State} (h : s.pc.toNat % 2 = 0) : (nextPc s).toNat % 2 = 0 := by
  rw [nextPc_eq, BitVec.toNat_add, BitVec.toNat_ofNat]
  omega

/-- An even PC and an offset whose bit 0 is 0 give an even target. -/
theorem toNat_relativeTarget_even {n : Nat} {s : State} {off : BitVec (n + 1)} (hn : n < 32) (hn0 : n ≠ 0)
    (h0 : off[0] = false) (h : s.pc.toNat % 2 = 0) : (relativeTarget s off).toNat % 2 = 0 := by
  obtain ⟨-, -, heven⟩ := signed_sext_of_bit_zero off hn hn0 h0
  have hu32 := toNat_u32 (unsigned s.pc + signed (sext off))
  rw [unsigned_eq_toNat] at hu32
  rw [relativeTarget, unsigned_eq_toNat]
  omega

theorem toNat_jalrTarget_even (s : State) (rs1 : RegIdx) (imm : BitVec 12) : (jalrTarget s rs1 imm).toNat % 2 = 0 := by
  rw [toNat_jalrTarget]
  exact Nat.mul_mod_left _ 2

theorem commit_branchResult_evenPc {s : State} {off : BitVec 13} (taken : Bool) (h0 : off[0] = false)
    (h : s.pc.toNat % 2 = 0) : (commit s (branchResult s taken off)).pc.toNat % 2 = 0 := by
  rw [commit_branch]
  cases taken
  · exact toNat_nextPc_even h
  · exact toNat_relativeTarget_even (by decide) (by decide) h0 h

theorem exec_keeps_evenPc {i : Instr} {s t : State} (hwf : WellFormed i) (h : s.pc.toNat % 2 = 0)
    (hexec : exec i s = .next t) : t.pc.toNat % 2 = 0 := by
  obtain rfl := eq_commit_of_exec hexec
  cases i with
  | lw rd rs1 imm =>
    rw [stepResult, commit_load]
    split
    · exact toNat_nextPc_even h
    · exact h
  | sw rs1 rs2 imm =>
    rw [stepResult, commit_store]
    split
    · exact toNat_nextPc_even h
    · exact h
  | beq rs1 rs2 off =>
    rw [stepResult]
    split
    · exact h
    · exact commit_branchResult_evenPc _ (by simpa [WellFormed, Instr.wellFormed] using hwf) h
  | bne rs1 rs2 off => exact commit_branchResult_evenPc _ (by simpa [WellFormed, Instr.wellFormed] using hwf) h
  | blt rs1 rs2 off => exact commit_branchResult_evenPc _ (by simpa [WellFormed, Instr.wellFormed] using hwf) h
  | jal rd off =>
    exact toNat_relativeTarget_even (by decide) (by decide) (by simpa [WellFormed, Instr.wellFormed] using hwf) h
  | jalr rd rs1 imm => exact toNat_jalrTarget_even s rs1 imm
  | _ => exact toNat_nextPc_even h

/-! ### The invariant, end by end of a step -/

theorem fetching_of_consistent {s : State} (h : Consistent s) (hnot : ¬ Ended s) : s.phase = .fetching :=
  h.boundary.resolve_right hnot

theorem faultRecord_of_consistent {s : State} (h : Consistent s) (hphase : s.phase = .fetching) :
    s.faultRecord = none := by
  rw [← Option.not_isSome_iff_eq_none, h.record, hphase]
  exact nofun

theorem trace_length_of_consistent {s : State} (h : Consistent s) (hphase : s.phase = .fetching) :
    s.trace.length = s.steps := by
  rw [h.traceLength, hphase, if_neg nofun]

/-- Cutting the run at the ceiling changes only the phase. -/
theorem consistent_ceilingHalted {s : State} (h : Consistent s) (hphase : s.phase = .fetching)
    (hsteps : s.steps = Config.stepCeiling) : Consistent { s with phase := .ceilingHalted } where
  memory := h.memory
  ceiling := h.ceiling
  boundary := .inr (.inr (.inl rfl))
  traceLength := (trace_length_of_consistent (s := s) h hphase).trans (if_neg nofun).symm
  lastSnapshot := h.lastSnapshot
  record := by simp [faultRecord_of_consistent h hphase]
  atCeiling := fun _ => hsteps
  evenPc := h.evenPc

theorem consistent_enterFaulted {s : State} (h : Consistent s) (kind : FaultKind) (pos : Nat) (aux : Option Word) :
    Consistent (enterFaulted s kind pos aux) where
  memory := h.memory
  ceiling := h.ceiling
  boundary := .inr (.inr (.inr rfl))
  traceLength := rfl
  lastSnapshot := nofun
  record := by simp
  atCeiling := nofun
  evenPc := h.evenPc

/-- A commit below the ceiling, with a canonical memory and an even PC, into `Fetching` or `Halted`. -/
theorem consistent_countStep {s : State} (h : Consistent s) (hphase : s.phase = .fetching)
    (hsteps : s.steps ≠ Config.stepCeiling) (f : RegFile) {m : Memory} {pc : Word} {phase : Phase} (hm : Memory.wf m)
    (hpc : pc.toNat % 2 = 0) (hend : phase = .fetching ∨ phase = .halted) :
    Consistent (countStep { s with regs := f, mem := m, pc := pc, phase := phase }) where
  memory := hm
  ceiling := Nat.lt_of_le_of_ne h.ceiling hsteps
  boundary := hend.imp_right .inl
  traceLength := by
    have := trace_length_of_consistent h hphase
    obtain rfl | rfl := hend <;> simp [this]
  lastSnapshot := by
    intro sn hsn
    simpa [snapshot, eq_comm] using hsn
  record := by
    obtain rfl | rfl := hend <;> simp [faultRecord_of_consistent h hphase]
  atCeiling := by
    obtain rfl | rfl := hend <;> exact nofun
  evenPc := hpc

theorem exec_keeps_consistent {i : Instr} {s t : State} (h : Consistent s) (hphase : s.phase = .fetching)
    (hsteps : s.steps ≠ Config.stepCeiling) (hwf : WellFormed i) (hexec : exec i s = .next t) : Consistent t := by
  have hmem := exec_keeps_mem_wf h.memory hexec
  have hpc := exec_keeps_evenPc hwf h.evenPc hexec
  obtain ⟨t', ht', ⟨f, m, pc, rfl, -⟩ | ⟨r, -, rfl⟩ | ⟨rs1, imm, -, -, rfl⟩⟩ := exec_cases i s <;>
    obtain rfl := Host.Outcome.next.inj (hexec.symm.trans ht')
  · exact consistent_countStep h hphase hsteps f hmem hpc (.inl rfl)
  · exact consistent_countStep h hphase hsteps s.regs hmem hpc (.inr rfl)
  · exact consistent_enterFaulted h _ _ _

/-- Settles O42: a consistent state with a step is at `Fetching`, and each end its step can have keeps the invariant. That the
PC stays even needs the decoded instruction to be well formed. -/
theorem stepKeepsConsistent : Obligations.StepKeepsConsistent := by
  intro s t hs hstep
  have hphase := fetching_of_consistent hs (not_ended_of_step hstep)
  obtain ⟨-, hsteps, rfl⟩ | ⟨kind, aux, -, rfl⟩ | ⟨i, hexec, hdecoded⟩ := stepEnd_of_step hstep
  · exact consistent_ceilingHalted hs hphase hsteps
  · exact consistent_enterFaulted hs kind _ aux
  · obtain ⟨hsteps, hwf⟩ := hdecoded hphase
    exact exec_keeps_consistent hs hphase hsteps hwf hexec

end Sys2Proof.Proofs
end

