-- ==== Sys2Proof/Proofs/Load.lean ====
section
/-! The load check (45_driver.md R136 to R138): which lines pass, the word of a line bit by bit, the first failing line, and the
eleven rows of the transition table, of which two are the load's. -/

namespace Sys2Proof.Proofs

open Sys2Proof.Machine Sys2Proof.Safety

/-! ### One line -/

/-- A character passes with the bit it stands for. -/
theorem bitOfChar_eq_some {c : Char} {b : Nat} : bitOfChar c = some b ↔ (c = '0' ∧ b = 0) ∨ (c = '1' ∧ b = 1) := by
  unfold bitOfChar
  split_ifs <;> simp_all [eq_comm]

theorem bitOfChar_isSome_iff (c : Char) : (bitOfChar c).isSome = true ↔ c = '0' ∨ c = '1' := by
  unfold bitOfChar
  split_ifs <;> simp_all

theorem bitsValue_isSome_iff (cs : Text) (acc : Nat) :
    (bitsValue cs acc).isSome = true ↔ ∀ c ∈ cs, c = '0' ∨ c = '1' := by
  induction cs generalizing acc with
  | nil => simp [bitsValue]
  | cons c cs ih =>
    rw [List.forall_mem_cons, ← bitOfChar_isSome_iff, bitsValue]
    cases bitOfChar c with
    | none => simp
    | some b => simpa using ih (2 * acc + b)

/-- The number read on top of `acc`: above the string's bits it is `acc`, and the k-th character from the left is the bit
that has as many below it as characters follow. -/
theorem bitsValue_bits {cs : Text} {acc v : Nat} (h : bitsValue cs acc = some v) :
    v / 2 ^ cs.length = acc ∧
      ∀ k, k < cs.length → (v.testBit (cs.length - 1 - k) = true ↔ cs[k]? = some '1') := by
  induction cs generalizing acc with
  | nil =>
    cases h
    exact ⟨Nat.div_one v, nofun⟩
  | cons c cs ih =>
    rw [bitsValue] at h
    split at h
    case h_2 => cases h
    case h_1 b hb =>
      obtain ⟨habove, hbits⟩ := ih h
      have hb2 : b < 2 ∧ (b = 1 ↔ c = '1') := by
        obtain ⟨rfl, rfl⟩ | ⟨rfl, rfl⟩ := bitOfChar_eq_some.mp hb <;> decide
      refine ⟨?_, fun k hk => ?_⟩
      · rw [List.length_cons, pow_succ, ← Nat.div_div_eq_div_mul, habove]
        omega
      · cases k with
        | zero =>
          rw [List.length_cons, Nat.add_sub_cancel, Nat.sub_zero, Nat.testBit_eq_decide_div_mod_eq, habove]
          simp only [List.getElem?_cons_zero, Option.some.injEq, decide_eq_true_eq, ← hb2.2]
          omega
        | succ k =>
          rw [List.getElem?_cons_succ, ← hbits k (Nat.lt_of_succ_lt_succ hk), List.length_cons,
            show cs.length + 1 - 1 - (k + 1) = cs.length - 1 - k by omega]

theorem lineWord_isSome_iff (l : Text) : (lineWord l).isSome = true ↔ LineOk l := by
  rw [LineOk, ← bitsValue_isSome_iff l 0, lineWord]
  split_ifs with h <;> simp [h]

theorem lineWord_eq_none_iff (l : Text) : lineWord l = none ↔ ¬ LineOk l := by
  rw [← lineWord_isSome_iff, Option.not_isSome_iff_eq_none]

theorem exists_lineWord_of_lineOk {l : Text} (h : LineOk l) : ∃ w, lineWord l = some w :=
  Option.isSome_iff_exists.mp ((lineWord_isSome_iff l).mpr h)

/-- The leftmost character of a line is bit 31 of its word. -/
theorem getLsbD_of_lineWord {l : Text} {w : Word} (h : lineWord l = some w) {k : Nat} (hk : k < 32) :
    w.getLsbD (31 - k) = true ↔ l[k]? = some '1' := by
  rw [lineWord] at h
  split_ifs at h with hlen
  obtain ⟨v, hv, rfl⟩ := Option.map_eq_some_iff.mp h
  obtain ⟨-, hbits⟩ := bitsValue_bits hv
  have hbit := hbits k (by omega)
  rw [hlen] at hbit
  have hlt : 31 - k < 32 := by omega
  rw [BitVec.getLsbD_ofNat, decide_eq_true hlt, Bool.true_and, ← hbit]

/-! ### All lines -/

/-- If every line passes, the check answers their words in order. -/
theorem loadCheck_of_all_lineOk {lines : List Text} (h : ∀ l ∈ lines, LineOk l) (p : Nat) :
    ∃ ws, loadCheck p lines = .words ws ∧ List.Forall₂ (fun l w => lineWord l = some w) lines ws := by
  induction lines generalizing p with
  | nil => exact ⟨[], rfl, .nil⟩
  | cons l lines ih =>
    obtain ⟨hl, hlines⟩ := List.forall_mem_cons.mp h
    obtain ⟨w, hw⟩ := exists_lineWord_of_lineOk hl
    obtain ⟨ws, hws, hall⟩ := ih hlines (p + 1)
    exact ⟨w :: ws, by rw [loadCheck, hw, hws], .cons hw hall⟩

/-- If a line fails and none before it does, the check answers its position. -/
theorem loadCheck_of_first_bad {lines : List Text} {j : Nat} {l : Text} (hl : lines[j]? = some l) (hbad : ¬ LineOk l)
    (hearly : ∀ (q : Nat) (early : Text), q < j → lines[q]? = some early → LineOk early) (p : Nat) :
    loadCheck p lines = .malformed (p + j) := by
  induction lines generalizing p j with
  | nil => cases hl
  | cons m lines ih =>
    cases j with
    | zero =>
      cases hl
      rw [loadCheck, (lineWord_eq_none_iff l).mpr hbad]
      rfl
    | succ j =>
      obtain ⟨w, hw⟩ := exists_lineWord_of_lineOk (hearly 0 m j.succ_pos rfl)
      have hrest := ih hl (fun q early hq he => hearly (q + 1) early (Nat.succ_lt_succ hq) he) (p + 1)
      rw [loadCheck, hw, hrest, Nat.add_right_comm, Nat.add_assoc]

theorem load_of_words {lines : List Text} {ws : List Word} (h : loadCheck 1 lines = .words ws) :
    load lines = { State.reset with prog := ws } := by
  rw [load, h]

/-- The load of an input with a failing line is the entry into `Faulted` from reset. -/
theorem load_entersFaulted_of_first_bad {lines : List Text} {j : Nat} {l : Text} (hl : lines[j]? = some l)
    (hbad : ¬ LineOk l) (hearly : ∀ (q : Nat) (early : Text), q < j → lines[q]? = some early → LineOk early) :
    EntersFaulted State.reset (load lines) .malformedInput (j + 1) none := by
  rw [load, loadCheck_of_first_bad hl hbad hearly 1, Nat.add_comm 1 j]
  exact enterFaulted_entersFaulted State.reset .malformedInput (j + 1) none

/-- Settles O46: the words of a passing input line by line, each bit by bit, and the first failing line. -/
theorem loadChecksEveryLine : Obligations.LoadChecksEveryLine := by
  refine fun lines => ⟨fun hok => ?_, fun j l hl hbad hearly => load_entersFaulted_of_first_bad hl hbad hearly⟩
  obtain ⟨ws, hws, hall⟩ := loadCheck_of_all_lineOk hok 1
  refine ⟨ws, load_of_words hws, hall.length_eq.symm, fun j l w hl hw k hk => getLsbD_of_lineWord ?_ hk⟩
  obtain ⟨hj, rfl⟩ := List.getElem?_eq_some_iff.mp hl
  obtain ⟨hj', rfl⟩ := List.getElem?_eq_some_iff.mp hw
  exact hall.get hj hj'

/-- The stack pointer is the one register reset does not clear. -/
theorem readReg_reset : ∀ r, readReg State.reset r = if r = 2 then 0x17C#32 else 0#32 := by decide

/-- Settles O47: the loaded state is reset but for its program, and a memory that lists nothing reads as 0 at every slot. -/
theorem loadedStateIsReset : Obligations.LoadedStateIsReset := by
  intro lines p h
  have hregs : ∀ r, readReg (load lines) r = if r = 2 then 0x17C#32 else 0#32 := fun r => by
    rw [load_of_words h, ← readReg_reset r]
    rfl
  refine ⟨hregs 2, fun r hr => (hregs r).trans (if_neg hr), ?_⟩
  rw [load_of_words h]
  exact ⟨rfl, fun a ha => memRead_of_isSlot [] ha, rfl, rfl, rfl, rfl, rfl⟩

/-! ### The transition table -/

/-- Settles O37, row by row: the two of the load, then the one the phase selects. -/
theorem transitionTableRows : Obligations.TransitionTableRows := by
  refine ⟨fun lines j l hl hbad hearly => load_entersFaulted_of_first_bad hl hbad hearly, fun lines hok => ?wellFormed,
    fun s => ⟨fun hphase hsteps => ?ceiling, fun hphase hsteps houtside => ?fetchFault,
      fun hphase hsteps haligned w hword => ?fetch, fun w hphase hdecode => ?unknown, fun w i hphase hdecode => ?decoded,
      fun i hphase hraises => ?accessFault, fun i hphase hraises hhalt => ?commit, fun i hphase hhalt => ?halt,
      advance_of_ended⟩⟩
  case wellFormed =>
    obtain ⟨ws, hws, hall⟩ := loadCheck_of_all_lineOk hok 1
    exact ⟨ws, hall.length_eq.symm, load_of_words hws⟩
  case ceiling => rw [advance_of_fetching hphase, fetchStage_ceiling hsteps]
  case fetchFault =>
    refine ⟨_, advance_of_fetching hphase, ?_⟩
    rw [fetchStage_outOfRange hsteps (fetchWord_eq_none.mpr houtside)]
    exact enterFaulted_entersFaulted s _ _ _
  case fetch =>
    rw [advance_of_fetching hphase, fetchStage_word hsteps (fetchWord_eq_some.mpr ⟨haligned, hword⟩)]
  case unknown =>
    refine ⟨_, advance_of_decoding hphase, ?_⟩
    rw [decodeStage_of_unknown hdecode]
    exact enterFaulted_entersFaulted s _ _ _
  case decoded => rw [advance_of_decoding hphase, decodeStage_of_instr hdecode]
  case accessFault =>
    rw [advance_of_executing hphase]
    exact exec_of_raisesOutOfRange hraises
  case commit =>
    rw [advance_of_executing hphase]
    have hexec := exec_eq_next i s
    obtain ⟨-, pc, hcommitted⟩ | ⟨-, h⟩ | ⟨-, h⟩ := exec_ends hexec
    · exact ⟨_, pc, hexec, hexec, hcommitted⟩
    · exact absurd h hhalt
    · exact absurd h hraises
  case halt =>
    rw [advance_of_executing hphase]
    exact exec_of_isHaltPattern hhalt s

end Sys2Proof.Proofs
end

