-- ==== Sys2Proof/Proofs/Run.lean ====
section
/-! Whole runs (45_driver.md R148, R156): the invariant holds along them and each ends. -/

namespace Sys2Proof.Proofs

open Sys2Proof.Machine Sys2Proof.Safety

/-! ### The invariant along a run -/

/-- The start of a run, whatever its program. -/
theorem consistent_reset_withProgram (p : List Word) : Consistent { State.reset with prog := p } where
  memory := reset_mem_wf
  ceiling := Nat.zero_le _
  boundary := .inl rfl
  traceLength := rfl
  lastSnapshot := nofun
  record := by simp [State.reset]
  atCeiling := nofun
  evenPc := rfl

/-- Settles O43: reset is the start of a run of no word. -/
theorem resetIsConsistent : Obligations.ResetIsConsistent := consistent_reset_withProgram []

theorem consistent_load (lines : List Text) : Consistent (load lines) := by
  unfold load
  split
  · exact consistent_reset_withProgram _
  · exact consistent_enterFaulted resetIsConsistent _ _ _

theorem runSteps_keeps_consistent {s : State} (h : Consistent s) (n : Nat) : Consistent (runSteps n s) := by
  induction n generalizing s with
  | zero => exact h
  | succ n ih =>
    by_cases hended : Ended s
    · rwa [runSteps_of_ended hended]
    · obtain ⟨t, ht, -⟩ := exists_step hended
      rw [runSteps_of_step ht]
      exact ih (stepKeepsConsistent s t h ht)

/-- Settles O44: the invariant holds of the loaded state and every step keeps it. -/
theorem everyRunIsConsistent : Obligations.EveryRunIsConsistent :=
  fun lines => ⟨consistent_load lines, runSteps_keeps_consistent (consistent_load lines)⟩

/-! ### The end of a run -/

/-- A step from `Fetching` ends the run or goes on at `Fetching` with one step more counted, which it does below the ceiling
only. -/
theorem step_progress {s : State} (hphase : s.phase = .fetching) : ∃ t, step s = .next t ∧
    (Ended t ∨ t.phase = .fetching ∧ t.steps = s.steps + 1 ∧ s.steps ≠ Config.stepCeiling) := by
  have hnot : ¬ Ended s := by simp [Ended, hphase]
  obtain ⟨t, ht, ⟨-, -, rfl⟩ | ⟨kind, aux, -, rfl⟩ | ⟨i, hexec, hbelow⟩⟩ := exists_step hnot
  · exact ⟨_, ht, .inl (.inr (.inl rfl))⟩
  · exact ⟨_, ht, .inl (.inr (.inr rfl))⟩
  · refine ⟨t, ht, ?_⟩
    obtain ⟨hsteps, -⟩ := hbelow hphase
    obtain ⟨hfetching, pc, -, -, hcount, -⟩ | ⟨hhalted, -⟩ | ⟨hfaulted, -⟩ := exec_ends hexec
    · exact .inr ⟨hfetching, hcount, hsteps⟩
    · exact .inl (.inl hhalted)
    · exact .inl (.inr (.inr hfaulted))

/-- `n` steps below the ceiling leave at most `n` more to count, and the ceiling itself ends the run. -/
theorem ended_runSteps {s : State} (hphase : s.phase = .fetching) {n : Nat} (hsteps : s.steps + n = Config.stepCeiling) :
    Ended (runSteps (n + 1) s) := by
  induction n generalizing s with
  | zero =>
    obtain ⟨t, ht, hended | ⟨-, -, hbelow⟩⟩ := step_progress hphase
    · rwa [runSteps_of_step ht]
    · exact absurd hsteps hbelow
  | succ n ih =>
    obtain ⟨t, ht, hended | ⟨hfetching, hcount, -⟩⟩ := step_progress hphase
    · rwa [runSteps_of_step ht, runSteps_of_ended hended]
    · rw [runSteps_of_step ht]
      exact ih hfetching (by omega)

theorem ended_runProgram (lines : List Text) : Ended (runProgram lines) := by
  unfold runProgram load
  split
  · exact ended_runSteps rfl (Nat.zero_add _)
  · rw [runSteps_of_ended (.inr (.inr rfl))]
    exact .inr (.inr rfl)

/-- Settles O45: each step uses up one of the counts left to the ceiling, where the last ends the run; the bound on the
executed steps of a run is part of the invariant. -/
theorem everyRunEnds : Obligations.EveryRunEnds := by
  refine ⟨fun s hphase hsteps => ?_, fun lines =>
    ⟨ended_runProgram lines, (runSteps_keeps_consistent (consistent_load lines) _).ceiling⟩⟩
  obtain ⟨n, hn⟩ := Nat.exists_eq_add_of_le hsteps
  rw [show 10001 - s.steps = n + 1 by omega]
  exact ended_runSteps hphase hn.symm

end Sys2Proof.Proofs
end

