-- ==== Sys2Proof/Proofs/Output.lean ====
section
/-! The dump and the trace lines (45_driver.md R150, R152). -/

namespace Sys2Proof.Proofs

open Sys2Proof.Machine Sys2Proof.Safety

/-! ### The dump -/

/-- The address of the k-th line of the dump. -/
def dumpAddress (k : Nat) : Word := BitVec.ofNat 32 (Config.dataBase + 4 * k)

theorem toNat_dumpAddress {k : Nat} (hk : k < 32) : (dumpAddress k).toNat = 0x10000 + 4 * k := by
  rw [dumpAddress, BitVec.toNat_ofNat, Config.dataBase]
  omega

theorem isSlot_dumpAddress {k : Nat} (hk : k < 32) : IsSlot (dumpAddress k) := by
  rw [IsSlot, toNat_dumpAddress hk]
  omega

theorem dumpPairs_length (s : State) : (dumpPairs s).length = 32 := by
  rw [dumpPairs, dumpAddresses, List.length_map, List.length_map, List.length_range, Config.dataSlots]

theorem dumpPairs_getElem? (s : State) {k : Nat} (hk : k < Config.dataSlots) :
    (dumpPairs s)[k]? = some (dumpAddress k, cellGet s.mem (dumpAddress k).toNat) := by
  rw [dumpPairs, dumpAddresses, List.getElem?_map, List.getElem?_map, List.getElem?_range hk, Option.map_some,
    Option.map_some, ← dumpAddress, memRead_of_isSlot s.mem (isSlot_dumpAddress hk), Option.getD_some]

/-- Settles O49: every dumped address is a slot, where reading memory answers the word shown. -/
theorem dumpShowsDataRegion : Obligations.DumpShowsDataRegion := fun s =>
  ⟨dumpPairs_length s, fun _ hk => ⟨_, _, dumpPairs_getElem? s hk, toNat_dumpAddress hk,
    memRead_of_isSlot s.mem (isSlot_dumpAddress hk)⟩⟩

/-! ### A field of a trace line -/

/-- The k-th digit from the left has n − 1 − k below it. -/
theorem bitChars_getElem? {n k : Nat} (v : Nat) (hk : k < n) :
    (bitChars n v)[k]? = some (if v.testBit (n - 1 - k) then '1' else '0') := by
  induction n generalizing k with
  | zero => cases hk
  | succ n ih =>
    cases k with
    | zero => simp [bitChars, Nat.testBit_eq_decide_div_mod_eq]
    | succ k =>
      rw [bitChars, List.getElem?_cons_succ, ih (Nat.lt_of_succ_lt_succ hk),
        show n + 1 - 1 - (k + 1) = n - 1 - k by omega]

theorem wordText_getElem? (w : Word) {k : Nat} (hk : k < 32) :
    (wordText w)[k + 2]? = some (if w.getLsbD (31 - k) then '1' else '0') := bitChars_getElem? w.toNat hk

theorem snapshotFields_getElem? (sn : Snapshot) {i : Nat} (hi : i < 32) :
    (snapshotFields sn)[i + 1]? = some (regGet sn.regs (BitVec.ofNat 5 i)) := by
  rw [snapshotFields, List.getElem?_cons_succ, List.getElem?_map, List.getElem?_range hi, Option.map_some]

/-! ### The line -/

/-- The line before its newline. -/
theorem joinSpaced_snapshotFields_length (sn : Snapshot) :
    (joinSpaced ((snapshotFields sn).map wordText)).length = 1154 := by
  rw [snapshotFields, joinSpaced_length, List.length_map, List.length_range]

theorem snapshotLine_take_field {sn : Snapshot} {i : Nat} {w : Word} (h : (snapshotFields sn)[i]? = some w) :
    ((snapshotLine sn).drop (35 * i)).take 34 = wordText w := by
  obtain ⟨rest, hdrop, -⟩ := joinSpaced_drop (snapshotFields sn) i w h ['\n']
  rw [snapshotLine, hdrop, List.take_left' (wordText_length w)]

/-- A field that is not the last is followed by one space. -/
theorem snapshotLine_space (sn : Snapshot) {i : Nat} (hi : i < 32) : (snapshotLine sn)[35 * i + 34]? = some ' ' := by
  have hlt : i < (snapshotFields sn).length := by
    rw [snapshotFields_length]
    omega
  obtain ⟨rest, hdrop, hspace⟩ := joinSpaced_drop (snapshotFields sn) i _ (List.getElem?_eq_getElem hlt) ['\n']
  rw [← List.getElem?_drop, snapshotLine, hdrop, List.getElem?_append_right (wordText_length _).le, wordText_length]
  exact hspace (by rw [snapshotFields_length]; omega)

/-- Settles O50: the fields in their order, the places of the fields and of the spaces by `joinSpaced_drop`, and the digits of a
field one by one. -/
theorem snapshotLineFormat : Obligations.SnapshotLineFormat := by
  refine ⟨fun sn => ⟨snapshotFields_length sn, rfl, ?x0, fun i hi => snapshotFields_getElem? sn hi, ?length, ?newline,
    fun i w h => snapshotLine_take_field h, fun i hi => snapshotLine_space sn hi⟩,
    fun w => ⟨wordText_length w, rfl, fun k hk => wordText_getElem? w hk⟩⟩
  case x0 => exact (snapshotFields_getElem? sn (by decide)).trans (congrArg some (regGet_zero sn.regs))
  case length => rw [snapshotLine, List.length_append, joinSpaced_snapshotFields_length, List.length_singleton]
  case newline =>
    rw [snapshotLine, List.getElem?_append_right (joinSpaced_snapshotFields_length sn).le,
      joinSpaced_snapshotFields_length]
    rfl

end Sys2Proof.Proofs
end

