-- ==== Sys2Proof/Proofs/Placement.lean ====
section
/-! The placement of a word for the next fetch (45_driver.md R141, R142; the model's log entry 4). -/

namespace Sys2Proof.Proofs

open Sys2Proof.Machine Sys2Proof.Safety

theorem placeWord_getElem? (p : List Word) (n : Nat) (w : Word) : (placeWord p n w)[n]? = some w := by
  induction n generalizing p with
  | zero => cases p <;> rfl
  | succ n ih => cases p <;> exact ih _

theorem withFetchWord_toNat (s : State) (w : Word) : s.withFetchWord 32 w.toNat = placeForFetch s w := by
  rw [State.withFetchWord, Nat.mod_eq_of_lt w.isLt, BitVec.ofNat_toNat, BitVec.setWidth_eq]

theorem placeForFetch_steps_ne_ceiling (s : State) (w : Word) : (placeForFetch s w).steps ≠ Config.stepCeiling := by
  show (if s.steps = Config.stepCeiling then 0 else s.steps) ≠ Config.stepCeiling
  split
  · decide
  · assumption

/-- The PC with its two low bits cleared. -/
theorem toNat_placeForFetch_pc (s : State) (w : Word) : (placeForFetch s w).pc.toNat = 4 * (s.pc.toNat / 4) := by
  have := s.pc.isLt
  rw [placeForFetch, BitVec.toNat_ofNat]
  omega

theorem fetchWord_placeForFetch (s : State) (w : Word) : fetchWord (placeForFetch s w) = some w := by
  rw [fetchWord_eq_some, toNat_placeForFetch_pc, Nat.mul_div_cancel_left _ (by decide : 0 < 4)]
  exact ⟨Nat.mul_mod_right 4 _, placeWord_getElem? s.prog _ w⟩

/-- Settles O51: the placed word is the one fetched, below the ceiling, and it decodes to its instruction. -/
theorem placedInstructionRunsNext : Obligations.PlacedInstructionRunsNext := by
  intro s i hwf
  rw [withFetchWord_toNat]
  exact ⟨step_of_decoded rfl (placeForFetch_steps_ne_ceiling s _) (fetchWord_placeForFetch s _)
    (encodedInstructionDecodesToItself i hwf), rfl, rfl, rfl⟩

end Sys2Proof.Proofs
end
